-- ==== Sys2Proof/Word.lean ====
section
/-! DEFINITION. The word types of the core and the plainest operations on them. -/

namespace Sys2Proof

/-- A byte of memory, a general register, a timer or an 8-bit immediate (00_scope.md R7). -/
abbrev Byte := BitVec 8

/-- An instruction word, `index`, `pc` or a stack entry (00_scope.md R7). -/
abbrev Word := BitVec 16

/-- A general register's number: a 4-bit field of the word, so that none is out of range (10_state.md R20). -/
abbrev RegIdx := Fin 16

/-- VF is register 15 (10_state.md R20, R21). -/
abbrev vfIdx : RegIdx := 15

end Sys2Proof
end

