-- ==== Sys2Proof/Syntax.lean ====
section
/-! DEFINITION. The 34 instructions of opcode_table.json, one constructor per row (30_encoding.md R84, R91). -/

namespace Sys2Proof

/-- An instruction. Each constructor's docstring gives the row's pattern; the names are the informative
mnemonics of 30_encoding.md R92, told apart by their operands. -/
inductive Instr where
  /-- `00E0`: clear the display. -/
  | cls
  /-- `00EE`: return from subroutine. -/
  | ret
  /-- `1NNN`: jump. -/
  | jp (nnn : BitVec 12)
  /-- `2NNN`: call. -/
  | call (nnn : BitVec 12)
  /-- `3XNN`: skip if `V[X] = NN`. -/
  | seImm (x : RegIdx) (nn : Byte)
  /-- `4XNN`: skip if `V[X] ≠ NN`. -/
  | sneImm (x : RegIdx) (nn : Byte)
  /-- `5XY0`: skip if `V[X] = V[Y]`. -/
  | seReg (x y : RegIdx)
  /-- `6XNN`: `V[X] = NN`. -/
  | ldImm (x : RegIdx) (nn : Byte)
  /-- `7XNN`: `V[X] += NN`. -/
  | addImm (x : RegIdx) (nn : Byte)
  /-- `8XY0`: `V[X] = V[Y]`. -/
  | ldReg (x y : RegIdx)
  /-- `8XY1`: `V[X] |= V[Y]`. -/
  | orReg (x y : RegIdx)
  /-- `8XY2`: `V[X] &= V[Y]`. -/
  | andReg (x y : RegIdx)
  /-- `8XY3`: `V[X] ^= V[Y]`. -/
  | xorReg (x y : RegIdx)
  /-- `8XY4`: `V[X] += V[Y]`, VF = carry. -/
  | addReg (x y : RegIdx)
  /-- `8XY5`: `V[X] -= V[Y]`, VF = not borrow. -/
  | subReg (x y : RegIdx)
  /-- `8XY6`: shift right by one, VF = bit out. -/
  | shr (x y : RegIdx)
  /-- `8XY7`: `V[X] = V[Y] - V[X]`, VF = not borrow. -/
  | subnReg (x y : RegIdx)
  /-- `8XYE`: shift left by one, VF = bit out. -/
  | shl (x y : RegIdx)
  /-- `9XY0`: skip if `V[X] ≠ V[Y]`. -/
  | sneReg (x y : RegIdx)
  /-- `ANNN`: `index = NNN`. -/
  | ldIndex (nnn : BitVec 12)
  /-- `BNNN`: jump to `NNN + V[0]` (or `V[X]`). -/
  | jpOffset (nnn : BitVec 12)
  /-- `CXNN`: `V[X]` = random byte AND NN. -/
  | rnd (x : RegIdx) (nn : Byte)
  /-- `DXYN`: draw an N-row sprite, VF = collision. -/
  | drw (x y : RegIdx) (n : Fin 16)
  /-- `EX9E`: skip if key `V[X]` is down. -/
  | skp (x : RegIdx)
  /-- `EXA1`: skip if key `V[X]` is up. -/
  | sknp (x : RegIdx)
  /-- `FX07`: `V[X] = delay`. -/
  | ldFromDelay (x : RegIdx)
  /-- `FX0A`: wait for a key. -/
  | ldKey (x : RegIdx)
  /-- `FX15`: `delay = V[X]`. -/
  | ldDelay (x : RegIdx)
  /-- `FX18`: `sound = V[X]`. -/
  | ldSound (x : RegIdx)
  /-- `FX1E`: `index += V[X]`, VF = range flag. -/
  | addIndex (x : RegIdx)
  /-- `FX29`: `index` = glyph address of `V[X]`. -/
  | ldGlyph (x : RegIdx)
  /-- `FX33`: store the decimal digits of `V[X]`. -/
  | storeBcd (x : RegIdx)
  /-- `FX55`: store `V[0..X]`. -/
  | storeRegs (x : RegIdx)
  /-- `FX65`: load `V[0..X]`. -/
  | loadRegs (x : RegIdx)
  deriving DecidableEq, Repr

end Sys2Proof
end

