-- ==== Sys2Proof/WellFormed.lean ====
section
/-! DEFINITION. Which words are legal, by the match and mask of opcode_table.json, and which instructions are
well formed. -/

namespace Sys2Proof

/-- A row of opcode_table.json: a word belongs to it when `w AND mask = match` (30_encoding.md R90, R91). -/
structure Row where
  mnemonic : String
  pattern : Word
  mask : Word
  deriving DecidableEq, Repr

/-- The word belongs to the row. -/
def Row.accepts (r : Row) (w : Word) : Bool := w &&& r.mask == r.pattern

/-- opcode_table.json, its 34 rows in its order. -/
def opcodeTable : List Row :=
  [⟨"00E0", 0x00E0, 0xFFFF⟩,
   ⟨"00EE", 0x00EE, 0xFFFF⟩,
   ⟨"1NNN", 0x1000, 0xF000⟩,
   ⟨"2NNN", 0x2000, 0xF000⟩,
   ⟨"3XNN", 0x3000, 0xF000⟩,
   ⟨"4XNN", 0x4000, 0xF000⟩,
   ⟨"5XY0", 0x5000, 0xF00F⟩,
   ⟨"6XNN", 0x6000, 0xF000⟩,
   ⟨"7XNN", 0x7000, 0xF000⟩] ++
  [⟨"8XY0", 0x8000, 0xF00F⟩,
   ⟨"8XY1", 0x8001, 0xF00F⟩,
   ⟨"8XY2", 0x8002, 0xF00F⟩,
   ⟨"8XY3", 0x8003, 0xF00F⟩,
   ⟨"8XY4", 0x8004, 0xF00F⟩,
   ⟨"8XY5", 0x8005, 0xF00F⟩,
   ⟨"8XY6", 0x8006, 0xF00F⟩,
   ⟨"8XY7", 0x8007, 0xF00F⟩,
   ⟨"8XYE", 0x800E, 0xF00F⟩] ++
  [⟨"9XY0", 0x9000, 0xF00F⟩,
   ⟨"ANNN", 0xA000, 0xF000⟩,
   ⟨"BNNN", 0xB000, 0xF000⟩,
   ⟨"CXNN", 0xC000, 0xF000⟩,
   ⟨"DXYN", 0xD000, 0xF000⟩,
   ⟨"EX9E", 0xE09E, 0xF0FF⟩,
   ⟨"EXA1", 0xE0A1, 0xF0FF⟩,
   ⟨"FX07", 0xF007, 0xF0FF⟩,
   ⟨"FX0A", 0xF00A, 0xF0FF⟩] ++
  [⟨"FX15", 0xF015, 0xF0FF⟩,
   ⟨"FX18", 0xF018, 0xF0FF⟩,
   ⟨"FX1E", 0xF01E, 0xF0FF⟩,
   ⟨"FX29", 0xF029, 0xF0FF⟩,
   ⟨"FX33", 0xF033, 0xF0FF⟩,
   ⟨"FX55", 0xF055, 0xF0FF⟩,
   ⟨"FX65", 0xF065, 0xF0FF⟩]

/-- The word is an instruction: it belongs to a row. Every other word is `UnknownOpcode`
(30_encoding.md R85 to R87, R89). -/
def legalWord (w : Word) : Bool := opcodeTable.any (·.accepts w)

/-- The row an instruction stands for. -/
def Instr.row : Instr → Row
  | .cls => ⟨"00E0", 0x00E0, 0xFFFF⟩
  | .ret => ⟨"00EE", 0x00EE, 0xFFFF⟩
  | .jp _ => ⟨"1NNN", 0x1000, 0xF000⟩
  | .call _ => ⟨"2NNN", 0x2000, 0xF000⟩
  | .seImm _ _ => ⟨"3XNN", 0x3000, 0xF000⟩
  | .sneImm _ _ => ⟨"4XNN", 0x4000, 0xF000⟩
  | .seReg _ _ => ⟨"5XY0", 0x5000, 0xF00F⟩
  | .ldImm _ _ => ⟨"6XNN", 0x6000, 0xF000⟩
  | .addImm _ _ => ⟨"7XNN", 0x7000, 0xF000⟩
  | .ldReg _ _ => ⟨"8XY0", 0x8000, 0xF00F⟩
  | .orReg _ _ => ⟨"8XY1", 0x8001, 0xF00F⟩
  | .andReg _ _ => ⟨"8XY2", 0x8002, 0xF00F⟩
  | .xorReg _ _ => ⟨"8XY3", 0x8003, 0xF00F⟩
  | .addReg _ _ => ⟨"8XY4", 0x8004, 0xF00F⟩
  | .subReg _ _ => ⟨"8XY5", 0x8005, 0xF00F⟩
  | .shr _ _ => ⟨"8XY6", 0x8006, 0xF00F⟩
  | .subnReg _ _ => ⟨"8XY7", 0x8007, 0xF00F⟩
  | .shl _ _ => ⟨"8XYE", 0x800E, 0xF00F⟩
  | .sneReg _ _ => ⟨"9XY0", 0x9000, 0xF00F⟩
  | .ldIndex _ => ⟨"ANNN", 0xA000, 0xF000⟩
  | .jpOffset _ => ⟨"BNNN", 0xB000, 0xF000⟩
  | .rnd _ _ => ⟨"CXNN", 0xC000, 0xF000⟩
  | .drw _ _ _ => ⟨"DXYN", 0xD000, 0xF000⟩
  | .skp _ => ⟨"EX9E", 0xE09E, 0xF0FF⟩
  | .sknp _ => ⟨"EXA1", 0xE0A1, 0xF0FF⟩
  | .ldFromDelay _ => ⟨"FX07", 0xF007, 0xF0FF⟩
  | .ldKey _ => ⟨"FX0A", 0xF00A, 0xF0FF⟩
  | .ldDelay _ => ⟨"FX15", 0xF015, 0xF0FF⟩
  | .ldSound _ => ⟨"FX18", 0xF018, 0xF0FF⟩
  | .addIndex _ => ⟨"FX1E", 0xF01E, 0xF0FF⟩
  | .ldGlyph _ => ⟨"FX29", 0xF029, 0xF0FF⟩
  | .storeBcd _ => ⟨"FX33", 0xF033, 0xF0FF⟩
  | .storeRegs _ => ⟨"FX55", 0xF055, 0xF0FF⟩
  | .loadRegs _ => ⟨"FX65", 0xF065, 0xF0FF⟩

/-- An instruction is well formed when its operands are ones its encoding admits. Every operand's type is
exactly its field's width and every accepted word's fields admit every value (30_encoding.md R81, R88), so no
check is left to an instruction; the checks of this instruction set are those on words, `legalWord`. -/
def Instr.wellFormed : Instr → Bool
  | .cls => true
  | .ret => true
  | .jp _ => true
  | .call _ => true
  | .seImm _ _ => true
  | .sneImm _ _ => true
  | .seReg _ _ => true
  | .ldImm _ _ => true
  | .addImm _ _ => true
  | .ldReg _ _ => true
  | .orReg _ _ => true
  | .andReg _ _ => true
  | .xorReg _ _ => true
  | .addReg _ _ => true
  | .subReg _ _ => true
  | .shr _ _ => true
  | .subnReg _ _ => true
  | .shl _ _ => true
  | .sneReg _ _ => true
  | .ldIndex _ => true
  | .jpOffset _ => true
  | .rnd _ _ => true
  | .drw _ _ _ => true
  | .skp _ => true
  | .sknp _ => true
  | .ldFromDelay _ => true
  | .ldKey _ => true
  | .ldDelay _ => true
  | .ldSound _ => true
  | .addIndex _ => true
  | .ldGlyph _ => true
  | .storeBcd _ => true
  | .storeRegs _ => true
  | .loadRegs _ => true

end Sys2Proof
end

