-- ==== Sys2Proof/Decode.lean ====
section
/-! DEFINITION. The decoder, total on words and on bytes, and after it the encoder (30_encoding.md R80 to R91). -/

namespace Sys2Proof

/-! ### Fields (30_encoding.md R81) -/

/-- `F = w[15:12]`, the family. -/
def fieldF (w : Word) : BitVec 4 := w.extractLsb' 12 4

/-- `X = w[11:8]`, a register's number. -/
def fieldX (w : Word) : RegIdx := (w.extractLsb' 8 4).toFin

/-- `Y = w[7:4]`, a register's number. -/
def fieldY (w : Word) : RegIdx := (w.extractLsb' 4 4).toFin

/-- `N = w[3:0]`. -/
def fieldN (w : Word) : BitVec 4 := w.extractLsb' 0 4

/-- `NN = w[7:0]`. -/
def fieldNN (w : Word) : Byte := w.extractLsb' 0 8

/-- `NNN = w[11:0]`. -/
def fieldNNN (w : Word) : BitVec 12 := w.extractLsb' 0 12

/-! ### The decoder -/

/-- Why the decoder refuses. -/
inductive DecodeError where
  /-- The word matches no row: `UnknownOpcode(w)` (30_encoding.md R85). -/
  | unknownOpcode (w : Word)
  /-- Fewer than two bytes: no instruction is shorter than one word (30_encoding.md R80). -/
  | truncated
  deriving DecidableEq, Repr

/-- Families 0: the whole word decides (30_encoding.md R86). -/
def decodeFamily0 (w : Word) : Except DecodeError Instr :=
  if w = 0x00E0 then .ok .cls
  else if w = 0x00EE then .ok .ret
  else .error (.unknownOpcode w)

/-- Family 8: the bottom nibble is the sub-code. -/
def decodeFamily8 (w : Word) : Except DecodeError Instr :=
  match (fieldN w).toNat with
  | 0x0 => .ok (.ldReg (fieldX w) (fieldY w))
  | 0x1 => .ok (.orReg (fieldX w) (fieldY w))
  | 0x2 => .ok (.andReg (fieldX w) (fieldY w))
  | 0x3 => .ok (.xorReg (fieldX w) (fieldY w))
  | 0x4 => .ok (.addReg (fieldX w) (fieldY w))
  | 0x5 => .ok (.subReg (fieldX w) (fieldY w))
  | 0x6 => .ok (.shr (fieldX w) (fieldY w))
  | 0x7 => .ok (.subnReg (fieldX w) (fieldY w))
  | 0xE => .ok (.shl (fieldX w) (fieldY w))
  | _ => .error (.unknownOpcode w)

/-- Family E: the bottom byte is the sub-code. -/
def decodeFamilyE (w : Word) : Except DecodeError Instr :=
  if fieldNN w = 0x9E then .ok (.skp (fieldX w))
  else if fieldNN w = 0xA1 then .ok (.sknp (fieldX w))
  else .error (.unknownOpcode w)

/-- Family F: the bottom byte is the sub-code. -/
def decodeFamilyF (w : Word) : Except DecodeError Instr :=
  if fieldNN w = 0x07 then .ok (.ldFromDelay (fieldX w))
  else if fieldNN w = 0x0A then .ok (.ldKey (fieldX w))
  else if fieldNN w = 0x15 then .ok (.ldDelay (fieldX w))
  else if fieldNN w = 0x18 then .ok (.ldSound (fieldX w))
  else if fieldNN w = 0x1E then .ok (.addIndex (fieldX w))
  else if fieldNN w = 0x29 then .ok (.ldGlyph (fieldX w))
  else if fieldNN w = 0x33 then .ok (.storeBcd (fieldX w))
  else if fieldNN w = 0x55 then .ok (.storeRegs (fieldX w))
  else if fieldNN w = 0x65 then .ok (.loadRegs (fieldX w))
  else .error (.unknownOpcode w)

/-- `Decode(w)` (30_encoding.md R84): one instruction, or `UnknownOpcode(w)`. Families 5 and 9 need N = 0
(30_encoding.md R87). -/
def decodeWord (w : Word) : Except DecodeError Instr :=
  match (fieldF w).toNat with
  | 0x0 => decodeFamily0 w
  | 0x1 => .ok (.jp (fieldNNN w))
  | 0x2 => .ok (.call (fieldNNN w))
  | 0x3 => .ok (.seImm (fieldX w) (fieldNN w))
  | 0x4 => .ok (.sneImm (fieldX w) (fieldNN w))
  | 0x5 => if fieldN w = 0 then .ok (.seReg (fieldX w) (fieldY w)) else .error (.unknownOpcode w)
  | 0x6 => .ok (.ldImm (fieldX w) (fieldNN w))
  | 0x7 => .ok (.addImm (fieldX w) (fieldNN w))
  | 0x8 => decodeFamily8 w
  | 0x9 => if fieldN w = 0 then .ok (.sneReg (fieldX w) (fieldY w)) else .error (.unknownOpcode w)
  | 0xA => .ok (.ldIndex (fieldNNN w))
  | 0xB => .ok (.jpOffset (fieldNNN w))
  | 0xC => .ok (.rnd (fieldX w) (fieldNN w))
  | 0xD => .ok (.drw (fieldX w) (fieldY w) (fieldN w).toFin)
  | 0xE => decodeFamilyE w
  | 0xF => decodeFamilyF w
  | _ => .error (.unknownOpcode w)

/-- `hi || lo`: fetch and the program file are big-endian (20_memory.md R55). -/
def wordOfBytes (hi lo : Byte) : Word := hi ++ lo

/-- The word's two bytes as memory holds them, the high byte at the lower address (20_memory.md R55). -/
def highByte (w : Word) : Byte := w.extractLsb' 8 8

/-- The low byte, at the higher address. -/
def lowByte (w : Word) : Byte := w.extractLsb' 0 8

/-- Decoding of a byte sequence: the first instruction and the bytes after it. -/
def decodeBytes : List Byte → Except DecodeError (Instr × List Byte)
  | hi :: lo :: rest =>
    match decodeWord (wordOfBytes hi lo) with
    | .ok i => .ok (i, rest)
    | .error e => .error e
  | _ => .error .truncated

/-! ### The encoder -/

/-- A word of the form F, NNN. -/
def packNNN (f : BitVec 4) (nnn : BitVec 12) : Word := f ++ nnn

/-- A word of the form F, X, NN. -/
def packXNN (f : BitVec 4) (x : RegIdx) (nn : Byte) : Word := f ++ BitVec.ofFin (w := 4) x ++ nn

/-- A word of the form F, X, Y, N. -/
def packXYN (f : BitVec 4) (x y : RegIdx) (n : BitVec 4) : Word :=
  f ++ BitVec.ofFin (w := 4) x ++ BitVec.ofFin (w := 4) y ++ n

/-- The word of an instruction (30_encoding.md R91, opcode_table.json's `encoding` column). -/
def encode : Instr → Word
  | .cls => 0x00E0
  | .ret => 0x00EE
  | .jp nnn => packNNN 0x1 nnn
  | .call nnn => packNNN 0x2 nnn
  | .seImm x nn => packXNN 0x3 x nn
  | .sneImm x nn => packXNN 0x4 x nn
  | .seReg x y => packXYN 0x5 x y 0x0
  | .ldImm x nn => packXNN 0x6 x nn
  | .addImm x nn => packXNN 0x7 x nn
  | .ldReg x y => packXYN 0x8 x y 0x0
  | .orReg x y => packXYN 0x8 x y 0x1
  | .andReg x y => packXYN 0x8 x y 0x2
  | .xorReg x y => packXYN 0x8 x y 0x3
  | .addReg x y => packXYN 0x8 x y 0x4
  | .subReg x y => packXYN 0x8 x y 0x5
  | .shr x y => packXYN 0x8 x y 0x6
  | .subnReg x y => packXYN 0x8 x y 0x7
  | .shl x y => packXYN 0x8 x y 0xE
  | .sneReg x y => packXYN 0x9 x y 0x0
  | .ldIndex nnn => packNNN 0xA nnn
  | .jpOffset nnn => packNNN 0xB nnn
  | .rnd x nn => packXNN 0xC x nn
  | .drw x y n => packXYN 0xD x y (BitVec.ofFin (w := 4) n)
  | .skp x => packXNN 0xE x 0x9E
  | .sknp x => packXNN 0xE x 0xA1
  | .ldFromDelay x => packXNN 0xF x 0x07
  | .ldKey x => packXNN 0xF x 0x0A
  | .ldDelay x => packXNN 0xF x 0x15
  | .ldSound x => packXNN 0xF x 0x18
  | .addIndex x => packXNN 0xF x 0x1E
  | .ldGlyph x => packXNN 0xF x 0x29
  | .storeBcd x => packXNN 0xF x 0x33
  | .storeRegs x => packXNN 0xF x 0x55
  | .loadRegs x => packXNN 0xF x 0x65

/-- The instruction as the bytes memory holds. -/
def encodeBytes (i : Instr) : List Byte := [highByte (encode i), lowByte (encode i)]

/-! ### The host's reading of a table word -/

/-- The instruction the decoder reads from the word `w` of `nbits` bits, bit 0 the least significant of the
one 16-bit word (opcode_table.json): its bytes laid out as memory holds them, then decoded. -/
def decodeTableWord (nbits w : Nat) : Option Instr :=
  let word : Word := BitVec.ofNat 16 (w % 2 ^ nbits)
  match decodeBytes [highByte word, lowByte word] with
  | .ok (i, _) => some i
  | .error _ => none

end Sys2Proof
end

