-- ==== Sys2Proof/Config.lean ====
section
/-! DEFINITION. The spec's parameters, the host's configuration inputs, and the free values (00_scope.md R6, R8). -/

namespace Sys2Proof

/-- Where the timers' ticks come from: `TIMER_TICK_SOURCE` (00_scope.md R8, 60_exceptions.md R251, R252). -/
inductive TimerTickSource where
  /-- Each step that completes without a fault performs one tick. -/
  | perStep
  /-- Steps do not tick; the host's `tick_req` does. -/
  | external
  deriving DecidableEq, Repr

/-- The 80-byte font parameter, 16 glyphs of 5 bytes (20_memory.md R52). -/
abbrev Font := Vector Byte 80

/-- The spec's parameters, fixed for a model instance (00_scope.md R8, 10_state.md R34). -/
structure Params where
  /-- `TIMER_TICK_SOURCE`. -/
  timerTickSource : TimerTickSource
  /-- `VF_FLAG_LAST`: the flag is the later of the two writes when X = F (42_alu.md R141). -/
  vfFlagLast : Bool
  /-- `FONT`. -/
  font : Font
  deriving DecidableEq, Repr

/-- The port `cfg_in`: the three quirk flags (00_scope.md R6, R9). -/
structure Quirks where
  /-- 8XY6 and 8XYE shift `V[Y]`. -/
  shiftQuirk : Bool
  /-- BNNN adds `V[X]`. -/
  jumpQuirk : Bool
  /-- FX55 and FX65 advance `index` by X + 1. -/
  indexIncrementQuirk : Bool
  deriving DecidableEq, Repr

/-- The defaults of 00_scope.md R6. -/
def Quirks.default : Quirks := ⟨false, false, false⟩

/-- The default font's glyphs 0 to 7 (20_memory.md R52). PRESUMED by the spec itself, which marks the
table as general knowledge (assumption log 6). -/
def standardGlyphsLow : List Byte :=
  [0xF0, 0x90, 0x90, 0x90, 0xF0] ++ [0x20, 0x60, 0x20, 0x20, 0x70] ++
  [0xF0, 0x10, 0xF0, 0x80, 0xF0] ++ [0xF0, 0x10, 0xF0, 0x10, 0xF0] ++
  [0x90, 0x90, 0xF0, 0x10, 0x10] ++ [0xF0, 0x80, 0xF0, 0x10, 0xF0] ++
  [0xF0, 0x80, 0xF0, 0x90, 0xF0] ++ [0xF0, 0x10, 0x20, 0x40, 0x40]

/-- The default font's glyphs 8 to F (20_memory.md R52). -/
def standardGlyphsHigh : List Byte :=
  [0xF0, 0x90, 0xF0, 0x90, 0xF0] ++ [0xF0, 0x90, 0xF0, 0x10, 0xF0] ++
  [0xF0, 0x90, 0xF0, 0x90, 0x90] ++ [0xE0, 0x90, 0xE0, 0x90, 0xE0] ++
  [0xF0, 0x80, 0x80, 0x80, 0xF0] ++ [0xE0, 0x90, 0x90, 0x90, 0xE0] ++
  [0xF0, 0x80, 0xF0, 0x80, 0xF0] ++ [0xF0, 0x80, 0xF0, 0x80, 0x80]

/-- The default of `FONT` (20_memory.md R52). -/
def standardFont : Font := ⟨(standardGlyphsLow ++ standardGlyphsHigh).toArray, by decide⟩

/-- The defaults of 00_scope.md R8. -/
def Params.default : Params := ⟨.perStep, true, standardFont⟩

/-- The n-th byte the host drives on `rand_in`. A free value: "any value 0..255, with no law relating
draws to each other or to the state" (60_exceptions.md R255), so it has no body (assumption log 4). -/
opaque Config.freeByte : Nat → Byte

end Sys2Proof
end

