-- ==== Sys2Proof/Machine/State.lean ====
section
/-! DEFINITION. The machine's state (10_state.md), its faults and refusals, and the state after reset. -/

namespace Sys2Proof.Machine

/-- The seven step faults (60_exceptions.md R240). The spec describes their entry (R241), so a step that meets one
answers a NEXT state whose `fault` field records it, and the outcome `.fault` is never answered: safe
(assumption log 1). -/
inductive Fault where
  /-- Raised by fetch when `pc + 1 >= 4096`. Safe: the spec's own rule. -/
  | outOfBoundsFetch
  /-- Raised by decode when the word matches no row. Safe: the spec's own rule. -/
  | unknownOpcode
  /-- Raised by 2NNN when `sp = 16`. Safe: the spec's own rule. -/
  | stackOverflow
  /-- Raised by DXYN, FX33, FX55, FX65 at a data address of 4096 or above. Safe: the spec's decision D7. -/
  | outOfBoundsAccess
  /-- Raised by FX33, FX55 at a write address below 0x050. Safe: the spec's decision D8. -/
  | protectedWrite
  /-- Raised by EX9E, EXA1 when `V[X] > 15`. Safe: the spec's decision D10. -/
  | keyIndexRange
  /-- Raised by FX29 when `V[X] > 15`. Safe: the spec's decision D9. -/
  | glyphIndexRange
  deriving DecidableEq, Repr

/-- Refusals. -/
inductive Refusal where
  /-- An instruction without a meaning yet, by its mnemonic: raised by `exec`'s arm. Safe. No arm of this model
  uses it. -/
  | notModelled (mnemonic : String)
  deriving DecidableEq, Repr

/-- What `raise <Fault>(info)` names: the kind and its information (00_scope.md R11, 60_exceptions.md R240). -/
structure Raised where
  kind : Fault
  detail : Nat
  deriving DecidableEq, Repr

/-- The fault record (10_state.md R32). The spec's `code` and `name` are functions of `kind`
(`Fault.code`, `Fault.name`), so that they are stored once. -/
structure FaultRecord where
  kind : Fault
  /-- `pc` at the start of the faulting step. -/
  fetchPc : Word
  /-- The fetched word, none for `OutOfBoundsFetch`. -/
  word : Option Word
  detail : Nat
  deriving DecidableEq, Repr

/-- The register file `V` (10_state.md R20). -/
abbrev RegFile := Vector Byte 16

/-- The keypad's 16 flags, true meaning down (10_state.md R28). -/
abbrev Keypad := Vector Bool 16

/-- The display, "64×32 boolean pixel grid, row-major": 32 rows of 64 pixels, true meaning lit (10_state.md R29).
The spec's `display[p]` is column `p mod 64` of row `p div 64` (`Display.cell` in Machine/Ops.lean). -/
abbrev Display := Vector (Vector Bool 64) 32

/-- Every pixel dark. -/
def Display.dark : Display := Vector.replicate 32 (Vector.replicate 64 false)

/-- The memory that differs from its reset contents, by rising address (`Memory.wf` in Machine/Ops.lean). -/
abbrev Memory := List Host.Cell

/-- The state: every element of 10_state.md R20 to R32, the input ports of 00_scope.md R9, the parameters of
00_scope.md R8, and one counter of the model's own. -/
structure State where
  /-- `V[0..15]` (R20). -/
  v : RegFile
  /-- `index` (R22). -/
  index : Word
  /-- `pc` (R23). -/
  pc : Word
  /-- `stack[0..15]` (R25). -/
  stack : Vector Word 16
  /-- `sp`, the count of occupied entries, 0..16 (R25). -/
  sp : Fin 17
  /-- `delay` (R27). -/
  delay : Byte
  /-- `sound` (R27). -/
  sound : Byte
  /-- `keypad`, the snapshot the step sampled (R28, 30_encoding.md R83). -/
  keypad : Keypad
  /-- `display` (R29). -/
  display : Display
  /-- `memory` (R30). -/
  mem : Memory
  /-- `opcode`, the transient latch (R31). -/
  opcode : Word
  /-- `fault`, the fault record (R32). -/
  fault : Option FaultRecord
  /-- The port `keypad_in`: what the host last wrote, false after `initialize` (00_scope.md R9, 10_state.md R37). -/
  keypadIn : Keypad
  /-- The port `cfg_in` (00_scope.md R6, R9). -/
  cfgIn : Quirks
  /-- The port `rand_in`: the byte the next CXNN takes (60_exceptions.md R255). -/
  randIn : Byte
  /-- The model's own counter of free bytes taken from `Config.freeByte` (assumption log 4). -/
  draws : Nat
  /-- The spec's parameters; no transition changes them (00_scope.md R8, 10_state.md R34). -/
  params : Params
  deriving DecidableEq, Repr

/-- What a step or an instruction answers. -/
abbrev Result := Host.Outcome State Fault Refusal

/-- The state after `initialize` with the default parameters and configuration (10_state.md R37,
00_scope.md R6, R8). Memory lists nothing: an unlisted address reads as its reset byte. The value at the
port `rand_in` is the model's (assumption log 4). -/
def State.reset : State where
  v := Vector.replicate 16 0
  index := 0
  pc := 0x200
  stack := Vector.replicate 16 0
  sp := 0
  delay := 0
  sound := 0
  keypad := Vector.replicate 16 false
  display := Display.dark
  mem := []
  opcode := 0
  fault := none
  keypadIn := Vector.replicate 16 false
  cfgIn := Quirks.default
  randIn := Config.freeByte 0
  draws := 0
  params := Params.default

end Sys2Proof.Machine
end

