-- ==== Sys2Proof/Machine/Ops.lean ====
section
/-! DEFINITION. The named operations over memory, registers, stack, timers and display, taking a fault, and the
parts of a step around an instruction. -/

namespace Sys2Proof.Machine

/-! ### Faults' codes and names (60_exceptions.md R240) -/

/-- The record's `code`. -/
def Fault.code : Fault → Nat
  | .outOfBoundsFetch => 1
  | .unknownOpcode => 2
  | .stackOverflow => 3
  | .outOfBoundsAccess => 4
  | .protectedWrite => 5
  | .keyIndexRange => 6
  | .glyphIndexRange => 7

/-- The record's `name`. -/
def Fault.name : Fault → String
  | .outOfBoundsFetch => "OutOfBoundsFetch"
  | .unknownOpcode => "UnknownOpcode"
  | .stackOverflow => "StackOverflow"
  | .outOfBoundsAccess => "OutOfBoundsAccess"
  | .protectedWrite => "ProtectedWrite"
  | .keyIndexRange => "KeyIndexRange"
  | .glyphIndexRange => "GlyphIndexRange"

/-! ### Memory (20_memory.md) -/

/-- The number of bytes of memory (20_memory.md R50). -/
def memorySize : Nat := 4096

/-- The size of the write-protected font region at address 0 (20_memory.md R51, R53). -/
def fontSize : Nat := 0x050

/-- Where programs are loaded and where execution starts (20_memory.md R51, 70_reset_and_hazards.md R283). -/
def programBase : Nat := 0x200

/-- The longest program: 4096 - 512 (00_scope.md R7). -/
def maxProgramSize : Nat := 3584

/-- What an address reads as when nothing is listed for it: its contents after `initialize`, FONT at
0x000-0x04F and 0 above (10_state.md R37). -/
def resetByte (font : Font) (a : Nat) : Byte := if h : a < 80 then font[a] else 0

/-- The canonical form: addresses strictly rising, no entry equal to what its address reads as unlisted. -/
abbrev Memory.wf (font : Font) (m : Memory) : Prop :=
  m.Pairwise (fun c d => c.1 < d.1) ∧ ∀ c ∈ m, c.2 ≠ resetByte font c.1

/-- The byte listed for an address, if any. -/
def Memory.find : Memory → Nat → Option Byte
  | [], _ => none
  | (k, b) :: m, a => if k = a then some b else Memory.find m a

/-- The byte an address holds. -/
def Memory.read (font : Font) (m : Memory) (a : Nat) : Byte := (m.find a).getD (resetByte font a)

/-- The cell at `a`, in front of cells above `a`; nothing where the byte is the one read anyway. -/
def Memory.cons (font : Font) (a : Nat) (b : Byte) (m : Memory) : Memory :=
  if b = resetByte font a then m else (a, b) :: m

/-- Store one byte, keeping the canonical form. No check: `State.memWrite` is the checked access. -/
def Memory.write (font : Font) : Memory → Nat → Byte → Memory
  | [], a, b => Memory.cons font a b []
  | (k, c) :: m, a, b =>
    if k < a then (k, c) :: Memory.write font m a b
    else if k = a then Memory.cons font a b m
    else Memory.cons font a b ((k, c) :: m)

/-- Store a byte sequence at ascending addresses, unchecked: `load_program`'s copy loop
(70_reset_and_hazards.md R281). -/
def Memory.writeList (font : Font) : Memory → Nat → List Byte → Memory
  | m, _, [] => m
  | m, a, b :: bs => Memory.writeList font (Memory.write font m a b) (a + 1) bs

/-- The byte the machine's memory holds at an address. -/
def State.byteAt (s : State) (a : Nat) : Byte := s.mem.read s.params.font a

/-- `MemRead(addr, 1)` (20_memory.md R67). -/
def State.memRead (s : State) (a : Nat) : Except Raised Byte :=
  if memorySize ≤ a then .error ⟨.outOfBoundsAccess, a⟩ else .ok (s.byteAt a)

/-- `MemWrite(addr, 1, v)` (20_memory.md R67): the bound first, then the protection. -/
def State.memWrite (s : State) (a : Nat) (b : Byte) : Except Raised State :=
  if memorySize ≤ a then .error ⟨.outOfBoundsAccess, a⟩
  else if a < fontSize then .error ⟨.protectedWrite, a⟩
  else .ok { s with mem := s.mem.write s.params.font a b }

/-- One-byte reads at `n` ascending addresses from `a` (20_memory.md R56). -/
def State.readBytes (s : State) : Nat → Nat → Except Raised (List Byte)
  | _, 0 => .ok []
  | a, n + 1 =>
    match s.memRead a with
    | .error r => .error r
    | .ok b =>
      match s.readBytes (a + 1) n with
      | .error r => .error r
      | .ok bs => .ok (b :: bs)

/-- One-byte writes at ascending addresses from `a` (20_memory.md R56). -/
def State.writeBytes : State → Nat → List Byte → Except Raised State
  | s, _, [] => .ok s
  | s, a, b :: bs =>
    match s.memWrite a b with
    | .error r => .error r
    | .ok t => State.writeBytes t (a + 1) bs

/-! ### Registers -/

/-- `V[i]` (10_state.md R20). -/
def State.getV (s : State) (i : RegIdx) : Byte := s.v[i.val]

/-- `V[i] <- b`. -/
def State.setV (s : State) (i : RegIdx) (b : Byte) : State := { s with v := s.v.set i.val b }

/-- `V[i], V[i+1], ... <- bs`, as far as there are registers. -/
def State.setVs : State → Nat → List Byte → State
  | s, _, [] => s
  | s, i, b :: bs => State.setVs (if h : i < 16 then s.setV ⟨i, h⟩ b else s) (i + 1) bs

/-- `V[0]` to `V[i]`, in ascending order. -/
def State.regsUpTo (s : State) (i : RegIdx) : List Byte := s.v.toList.take (i.val + 1)

/-- `index <- w`. -/
def State.setIndex (s : State) (w : Word) : State := { s with index := w }

/-- `pc <- w`. -/
def State.setPc (s : State) (w : Word) : State := { s with pc := w }

/-- `delay <- b`. -/
def State.setDelay (s : State) (b : Byte) : State := { s with delay := b }

/-- `sound <- b`. -/
def State.setSound (s : State) (b : Byte) : State := { s with sound := b }

/-- The display as a whole. -/
def State.setDisplay (s : State) (d : Display) : State := { s with display := d }

/-- A skip: `pc` moves past one more word (00_scope.md R13, 41_skip_load_add.md). -/
def State.skipIf (s : State) (c : Bool) : State := if c then s.setPc (s.pc + 2) else s

/-! ### The call stack (10_state.md R25) -/

/-- A push: `stack[sp] <- w`, then `sp` counts one more. None when 16 entries are present. -/
def State.push (s : State) (w : Word) : Option State :=
  if h : s.sp.val < 16 then
    some { s with stack := s.stack.set s.sp.val w, sp := ⟨s.sp.val + 1, by omega⟩ }
  else none

/-- A pop: `sp` counts one less, then `stack[sp]` is read and stays in place. None when empty. -/
def State.pop (s : State) : Option (Word × State) :=
  if h : 0 < s.sp.val then
    some (s.stack[s.sp.val - 1]'(by omega), { s with sp := ⟨s.sp.val - 1, by omega⟩ })
  else none

/-! ### The keypad (10_state.md R28) -/

/-- `keypad[k]`, false past the sixteenth key. -/
def State.keyDown (s : State) (k : Nat) : Bool := if h : k < 16 then s.keypad[k] else false

/-- The first true flag of a list, counted from `k`. -/
def firstTrue : List Bool → Nat → Option Nat
  | [], _ => none
  | b :: bs, k => if b then some k else firstTrue bs (k + 1)

/-- The lowest key that is down: FX0A's ascending scan (46_misc.md R211). -/
def State.lowestKey (s : State) : Option Nat := firstTrue s.keypad.toList 0

/-! ### The display (10_state.md R29) -/

/-- Pixel (x, y), dark off the screen. -/
def Display.pixel (d : Display) (x y : Nat) : Bool := if h : x < 64 ∧ y < 32 then (d[y]'h.2)[x]'h.1 else false

/-- `display[p]`: "row-major, index = x + y*64". -/
def Display.cell (d : Display) (p : Nat) : Bool := Display.pixel d (p % 64) (p / 64)

/-- Pixel (x, y) inverted; off the screen there is none. -/
def Display.flip (d : Display) (x y : Nat) : Display :=
  if h : x < 64 ∧ y < 32 then d.set y ((d[y]'h.2).set x (!(d[y]'h.2)[x]'h.1) h.1) h.2 else d

/-- Pixel (x, y) of the machine's display (44_draw.md R182). -/
def State.pixel (s : State) (x y : Nat) : Bool := Display.pixel s.display x y

/-! ### The random source (60_exceptions.md R255) -/

/-- After a draw the port holds another free byte, with no law relating it to the one taken. -/
def State.nextDraw (s : State) : State :=
  { s with randIn := Config.freeByte (s.draws + 1), draws := s.draws + 1 }

/-! ### The timers -/

/-- One timer's tick: down by one, floor at 0. -/
def tickDown (b : Byte) : Byte := if b = 0 then 0 else b - 1

/-- `TimerTick()` (60_exceptions.md R251). -/
def State.timerTick (s : State) : State :=
  { s with delay := tickDown s.delay, sound := tickDown s.sound }

/-! ### Taking a fault (60_exceptions.md R241) -/

/-- Fault entry, on the state a step began with: nothing of it changes but the record. There is no vector,
handler or saved-state register (60_exceptions.md R244). -/
def State.enterFault (s : State) (r : Raised) (word : Option Word) : State :=
  { s with fault := some ⟨r.kind, s.pc, word, r.detail⟩ }

/-- The fetch advance undone. -/
def State.undoFetch (s : State) : State := { s with pc := s.pc - 2 }

/-- `raise <Fault>(info)` inside an instruction that began in state `s`: every write of the instruction is
dropped, the fetch advance is undone, and the record is set with the word the latch holds. What the step did
before the instruction (sampling, the latch) is undone by `State.finish`. -/
def State.raise (s : State) (r : Raised) : Result := .next (s.undoFetch.enterFault r (some s.opcode))

/-- The instruction's outcome from a computation on `s` that may raise. -/
def State.orRaise (s : State) : Except Raised State → Result
  | .ok t => .next t
  | .error r => s.raise r

/-- The way out of a fault, and the only one: `Initialize()` (70_reset_and_hazards.md R280). The keypad is
"false, until the host next writes `keypad_in`" (10_state.md R37), so the port's held level goes with the snapshot
(assumption log 27). The parameters and `cfg_in` are no part of it (R37), nor is `rand_in` (assumption log 4). -/
def State.initialize (s : State) : State :=
  { s with
    v := Vector.replicate 16 0
    index := 0
    pc := BitVec.ofNat 16 programBase
    stack := Vector.replicate 16 0
    sp := 0
    delay := 0
    sound := 0
    keypad := Vector.replicate 16 false
    display := Display.dark
    mem := []
    opcode := 0
    fault := none
    keypadIn := Vector.replicate 16 false }

/-! ### The parts of a step around the instruction (30_encoding.md R83) -/

/-- The word of two consecutive bytes, high byte first (20_memory.md R55). -/
def State.wordAt (s : State) (a : Nat) : Word := wordOfBytes (s.byteAt a) (s.byteAt (a + 1))

/-- `Fetch(pc)` (20_memory.md R67). -/
def State.fetch (s : State) : Except Raised Word :=
  if memorySize ≤ s.pc.toNat + 1 then .error ⟨.outOfBoundsFetch, s.pc.toNat⟩ else .ok (s.wordAt s.pc.toNat)

/-- Sampling, the latch and the fetch advance: the state an instruction begins in. `cfg_in` and `rand_in` are
read at their ports, which nothing in a step changes but the draw itself. -/
def State.begin (s : State) (w : Word) : State :=
  { s with keypad := s.keypadIn, opcode := w, pc := s.pc + 2 }

/-- The fault a refused word raises (30_encoding.md R85). -/
def decodeRaises (w : Word) : Raised := ⟨.unknownOpcode, w.toNat⟩

/-- Step 4: the tick of a completed step in `PerStep` mode (60_exceptions.md R251, R252). -/
def State.endOfStep (t : State) : State :=
  match t.params.timerTickSource with
  | .perStep => t.timerTick
  | .external => t

/-- The end of a step that began in `s` and whose instruction left `t`: the tick, or, when the instruction
raised, `s` with the record as the only change (60_exceptions.md R241). -/
def State.finish (s t : State) : State :=
  match t.fault with
  | none => t.endOfStep
  | some r => { s with fault := some r }

/-- A step's outcome from its instruction's. -/
def State.finishResult (s : State) : Result → Result
  | .next t => .next (s.finish t)
  | .fault f => .fault f
  | .refused r => .refused r

/-! ### Placing a word to be fetched next (no operation of the hardware's) -/

/-- A state whose next step fetches: not faulted, and `pc` at two bytes of memory. -/
def State.readyToFetch (s : State) : State :=
  { s with
    fault := none
    pc := if memorySize ≤ s.pc.toNat + 1 then BitVec.ofNat 16 programBase else s.pc }

/-- The word's bytes stored at `pc`, high byte first. -/
def State.placeWord (s : State) (w : Word) : State :=
  { s with mem := s.mem.writeList s.params.font s.pc.toNat [highByte w, lowByte w] }

end Sys2Proof.Machine
end

