-- ==== Sys2Proof/Machine/Flags.lean ====
section
/-! DEFINITION. VF, the only flag (10_state.md R33): its conditions, and the order of result and flag. -/

namespace Sys2Proof.Machine

/-- A flag as VF holds it: 1 or 0. -/
def flagByte (b : Bool) : Byte := if b then 1 else 0

/-- 8XY4: the unsigned sum exceeds 255 (42_alu.md R146). -/
def carryOut (a b : Byte) : Bool := 255 < a.toNat + b.toNat

/-- 8XY5, 8XY7: `a - b` does not borrow (42_alu.md R147, R149). -/
def notBorrow (a b : Byte) : Bool := b.toNat ≤ a.toNat

/-- 8XY6: bit 0 before the shift (42_alu.md R148). -/
def bitOutRight (b : Byte) : Bool := b.getLsbD 0

/-- 8XYE: bit 7 before the shift (42_alu.md R150). -/
def bitOutLeft (b : Byte) : Bool := b.getLsbD 7

/-- FX1E: the new `index` is 0x1000 or more (46_misc.md R214). -/
def indexRange (w : Word) : Bool := 0x1000 ≤ w.toNat

/-- `V[15] <- flag`. -/
def State.setFlag (s : State) (b : Bool) : State := s.setV vfIdx (flagByte b)

/-- `WriteRF(x, result, flag)`: the order of the two writes is the parameter `VF_FLAG_LAST` (42_alu.md R141). -/
def State.writeRF (s : State) (x : RegIdx) (result : Byte) (flag : Bool) : State :=
  if s.params.vfFlagLast then (s.setV x result).setFlag flag else (s.setFlag flag).setV x result

end Sys2Proof.Machine
end

