-- ==== Sys2Proof/Machine/Operands.lean ====
section
/-! DEFINITION. The operand forms: where an instruction's inputs come from. -/

namespace Sys2Proof.Machine

/-- An address immediate in `pc` or `index`: zero-extended (30_encoding.md R82). -/
def addressOf (nnn : BitVec 12) : Word := nnn.setWidth 16

/-- A byte added to a 16-bit register: zero-extended (30_encoding.md R82). -/
def wideByte (b : Byte) : Word := b.setWidth 16

/-- The input of 8XY6 and 8XYE: `V[Y]` under `shift_quirk`, else `V[X]` (42_alu.md R148, R150). -/
def State.shiftSource (s : State) (x y : RegIdx) : Byte := if s.cfgIn.shiftQuirk then s.getV y else s.getV x

/-- `NNN[11:8]` as a register's number (43_index_offset_random.md R171). -/
def topNibble (nnn : BitVec 12) : RegIdx := (nnn.extractLsb' 8 4).toFin

/-- BNNN's offset: `V[X]` under `jump_quirk`, else `V[0]` (43_index_offset_random.md R171). -/
def State.jumpOffset (s : State) (nnn : BitVec 12) : Byte :=
  if s.cfgIn.jumpQuirk then s.getV (topNibble nnn) else s.getV 0

/-- The address of a data access's first byte; the k-th byte is at `k` more, with no wrap (20_memory.md R60). -/
def State.dataAddress (s : State) : Nat := s.index.toNat

/-- DXYN's column of origin (44_draw.md R180). -/
def State.originX (s : State) (x : RegIdx) : Nat := (s.getV x).toNat % 64

/-- DXYN's row of origin (44_draw.md R180). -/
def State.originY (s : State) (y : RegIdx) : Nat := (s.getV y).toNat % 32

/-- A key's or a glyph's number: all of `V[X]`, which must be at most 15 (45_keys.md R200, 46_misc.md R215). -/
def State.smallNumber (s : State) (x : RegIdx) (k : Fault) : Except Raised Nat :=
  if 15 < (s.getV x).toNat then .error ⟨k, (s.getV x).toNat⟩ else .ok (s.getV x).toNat

/-- The glyph of digit `d` is at `5*d` (20_memory.md R52). -/
def glyphAddress (d : Nat) : Word := BitVec.ofNat 16 (5 * d)

/-- FX33's three digits, hundreds first (46_misc.md R216). -/
def bcdDigits (b : Byte) : List Byte :=
  [BitVec.ofNat 8 (b.toNat / 100), BitVec.ofNat 8 (b.toNat / 10 % 10), BitVec.ofNat 8 (b.toNat % 10)]

/-- FX55's and FX65's end: `index` moves past the X + 1 bytes under `index_increment_quirk`
(46_misc.md R217, R218). -/
def State.advanceIndex (s : State) (x : RegIdx) : State :=
  if s.cfgIn.indexIncrementQuirk then s.setIndex (s.index + BitVec.ofNat 16 (x.val + 1)) else s

end Sys2Proof.Machine
end

