-- ==== Sys2Proof/Machine/Alu.lean ====
section
/-! DEFINITION. Family 0x8: the register ALU (42_alu.md). Operands are read before any write (00_scope.md R11). -/

namespace Sys2Proof.Machine

/-- `8XY0` (42_alu.md R142). -/
def execLdReg (x y : RegIdx) (s : State) : Result := .next (s.setV x (s.getV y))

/-- `8XY1` (42_alu.md R143): VF is no flag here. -/
def execOrReg (x y : RegIdx) (s : State) : Result := .next (s.setV x (s.getV x ||| s.getV y))

/-- `8XY2` (42_alu.md R144). -/
def execAndReg (x y : RegIdx) (s : State) : Result := .next (s.setV x (s.getV x &&& s.getV y))

/-- `8XY3` (42_alu.md R145). -/
def execXorReg (x y : RegIdx) (s : State) : Result := .next (s.setV x (s.getV x ^^^ s.getV y))

/-- `8XY4` (42_alu.md R146). -/
def execAddReg (x y : RegIdx) (s : State) : Result :=
  .next (s.writeRF x (s.getV x + s.getV y) (carryOut (s.getV x) (s.getV y)))

/-- `8XY5` (42_alu.md R147). -/
def execSubReg (x y : RegIdx) (s : State) : Result :=
  .next (s.writeRF x (s.getV x - s.getV y) (notBorrow (s.getV x) (s.getV y)))

/-- `8XY6` (42_alu.md R148). -/
def execShr (x y : RegIdx) (s : State) : Result :=
  .next (s.writeRF x (s.shiftSource x y >>> 1) (bitOutRight (s.shiftSource x y)))

/-- `8XY7` (42_alu.md R149). -/
def execSubnReg (x y : RegIdx) (s : State) : Result :=
  .next (s.writeRF x (s.getV y - s.getV x) (notBorrow (s.getV y) (s.getV x)))

/-- `8XYE` (42_alu.md R150). -/
def execShl (x y : RegIdx) (s : State) : Result :=
  .next (s.writeRF x (s.shiftSource x y <<< 1) (bitOutLeft (s.shiftSource x y)))

end Sys2Proof.Machine
end

