-- ==== Sys2Proof/Machine/Draw.lean ====
section
/-! DEFINITION. Family 0xD: the sprite draw (44_draw.md). -/

namespace Sys2Proof.Machine

/-- One sprite bit of 1 at pixel (x, y): the pixel is inverted, and a lit one is a collision (44_draw.md R180). -/
def plot (c : Display × Bool) (x y : Nat) : Display × Bool := (Display.flip c.1 x y, c.2 || Display.pixel c.1 x y)

/-- The column loop of one sprite row `b` on screen row `y`: the `k` columns from `col` on, stopping past the
right edge. Bit 7 is the leftmost column (44_draw.md R180, R181). -/
def drawColumns (b : Byte) (x0 y : Nat) : Nat → Nat → Display × Bool → Display × Bool
  | 0, _, c => c
  | k + 1, col, c =>
    if 63 < x0 + col then c
    else drawColumns b x0 y k (col + 1) (if b.getLsbD (7 - col) then plot c (x0 + col) y else c)

/-- The row loop: the `k` sprite rows from `row` on, stopping past the bottom edge before the row's byte is
read (44_draw.md R180). -/
def State.drawRows (s : State) (x0 y0 : Nat) : Nat → Nat → Display × Bool → Except Raised (Display × Bool)
  | 0, _, c => .ok c
  | k + 1, row, c =>
    if 31 < y0 + row then .ok c
    else
      match s.memRead (s.dataAddress + row) with
      | .error r => .error r
      | .ok b => s.drawRows x0 y0 k (row + 1) (drawColumns b x0 (y0 + row) 8 0 c)

/-- `DXYN` (44_draw.md R180): VF ends as the collision, whatever it was. -/
def execDrw (x y : RegIdx) (n : Fin 16) (s : State) : Result :=
  match s.drawRows (s.originX x) (s.originY y) n.val 0 (s.display, false) with
  | .error r => s.raise r
  | .ok (d, hit) => .next ((s.setDisplay d).setFlag hit)

end Sys2Proof.Machine
end

