-- ==== Sys2Proof/Machine/IndexOffsetRandom.lean ====
section
/-! DEFINITION. Families 0xA, 0xB, 0xC: set index, jump with offset, random (43_index_offset_random.md). -/

namespace Sys2Proof.Machine

/-- `ANNN` (43_index_offset_random.md R170). -/
def execLdIndex (nnn : BitVec 12) (s : State) : Result := .next (s.setIndex (addressOf nnn))

/-- `BNNN` (43_index_offset_random.md R171): the sum is not masked to 12 bits. -/
def execJpOffset (nnn : BitVec 12) (s : State) : Result :=
  .next (s.setPc (addressOf nnn + wideByte (s.jumpOffset nnn)))

/-- `CXNN` (43_index_offset_random.md R172): takes the byte at `rand_in`. -/
def execRnd (x : RegIdx) (nn : Byte) (s : State) : Result := .next (s.nextDraw.setV x (s.randIn &&& nn))

end Sys2Proof.Machine
end

