-- ==== Sys2Proof/Machine/Keys.lean ====
section
/-! DEFINITION. Family 0xE: the key skips (45_keys.md). -/

namespace Sys2Proof.Machine

/-- `EX9E` (45_keys.md R200). -/
def execSkp (x : RegIdx) (s : State) : Result :=
  match s.smallNumber x .keyIndexRange with
  | .error r => s.raise r
  | .ok k => .next (s.skipIf (s.keyDown k))

/-- `EXA1` (45_keys.md R201). -/
def execSknp (x : RegIdx) (s : State) : Result :=
  match s.smallNumber x .keyIndexRange with
  | .error r => s.raise r
  | .ok k => .next (s.skipIf (!s.keyDown k))

end Sys2Proof.Machine
end

