-- ==== Sys2Proof/Machine/Misc.lean ====
section
/-! DEFINITION. Family 0xF: timers, key wait, index arithmetic, decimal digits, block transfer (46_misc.md). -/

namespace Sys2Proof.Machine

/-- `FX07` (46_misc.md R210): the value before this step's tick. -/
def execLdFromDelay (x : RegIdx) (s : State) : Result := .next (s.setV x s.delay)

/-- `FX0A` (46_misc.md R211): the lowest key that is down, or the same instruction again. -/
def execLdKey (x : RegIdx) (s : State) : Result :=
  match s.lowestKey with
  | some k => .next (s.setV x (BitVec.ofNat 8 k))
  | none => .next (s.setPc (s.pc - 2))

/-- `FX15` (46_misc.md R212). -/
def execLdDelay (x : RegIdx) (s : State) : Result := .next (s.setDelay (s.getV x))

/-- `FX18` (46_misc.md R213). -/
def execLdSound (x : RegIdx) (s : State) : Result := .next (s.setSound (s.getV x))

/-- `FX1E` (46_misc.md R214): VF tells of the new `index`, not of a carry. -/
def execAddIndex (x : RegIdx) (s : State) : Result :=
  .next ((s.setIndex (s.index + wideByte (s.getV x))).setFlag (indexRange (s.index + wideByte (s.getV x))))

/-- `FX29` (46_misc.md R215). -/
def execLdGlyph (x : RegIdx) (s : State) : Result :=
  match s.smallNumber x .glyphIndexRange with
  | .error r => s.raise r
  | .ok d => .next (s.setIndex (glyphAddress d))

/-- `FX33` (46_misc.md R216). -/
def execStoreBcd (x : RegIdx) (s : State) : Result :=
  s.orRaise (s.writeBytes s.dataAddress (bcdDigits (s.getV x)))

/-- `FX55` (46_misc.md R217). -/
def execStoreRegs (x : RegIdx) (s : State) : Result :=
  match s.writeBytes s.dataAddress (s.regsUpTo x) with
  | .error r => s.raise r
  | .ok t => .next (t.advanceIndex x)

/-- `FX65` (46_misc.md R218). -/
def execLoadRegs (x : RegIdx) (s : State) : Result :=
  match s.readBytes s.dataAddress (x.val + 1) with
  | .error r => s.raise r
  | .ok bs => .next ((s.setVs 0 bs).advanceIndex x)

end Sys2Proof.Machine
end

