-- ==== Sys2Proof/Machine/SkipLoadAdd.lean ====
section
/-! DEFINITION. Families 0x3, 0x4, 0x5, 0x9, 0x6, 0x7: skips, load and add immediate (41_skip_load_add.md). -/

namespace Sys2Proof.Machine

/-- `3XNN` (41_skip_load_add.md R120). -/
def execSeImm (x : RegIdx) (nn : Byte) (s : State) : Result := .next (s.skipIf (s.getV x == nn))

/-- `4XNN` (41_skip_load_add.md R121). -/
def execSneImm (x : RegIdx) (nn : Byte) (s : State) : Result := .next (s.skipIf (s.getV x != nn))

/-- `5XY0` (41_skip_load_add.md R122). -/
def execSeReg (x y : RegIdx) (s : State) : Result := .next (s.skipIf (s.getV x == s.getV y))

/-- `9XY0` (41_skip_load_add.md R123). -/
def execSneReg (x y : RegIdx) (s : State) : Result := .next (s.skipIf (s.getV x != s.getV y))

/-- `6XNN` (41_skip_load_add.md R124). -/
def execLdImm (x : RegIdx) (nn : Byte) (s : State) : Result := .next (s.setV x nn)

/-- `7XNN` (41_skip_load_add.md R125): modulo 256, no flag. -/
def execAddImm (x : RegIdx) (nn : Byte) (s : State) : Result := .next (s.setV x (s.getV x + nn))

end Sys2Proof.Machine
end

