-- ==== Sys2Proof/Machine/SysJumpCall.lean ====
section
/-! DEFINITION. Families 0x0, 0x1, 0x2: clear, return, jump, call (40_sys_jump_call.md). `s` is the state after
the fetch advance. -/

namespace Sys2Proof.Machine

/-- `00E0` (40_sys_jump_call.md R100). -/
def execCls (s : State) : Result := .next (s.setDisplay Display.dark)

/-- `00EE` (40_sys_jump_call.md R101): a no-op on an empty stack. -/
def execRet (s : State) : Result :=
  match s.pop with
  | none => .next s
  | some (w, t) => .next (t.setPc w)

/-- `1NNN` (40_sys_jump_call.md R102). -/
def execJp (nnn : BitVec 12) (s : State) : Result := .next (s.setPc (addressOf nnn))

/-- `2NNN` (40_sys_jump_call.md R103): `StackOverflow(NNN)` when 16 entries are present. -/
def execCall (nnn : BitVec 12) (s : State) : Result :=
  match s.push s.pc with
  | none => s.raise ⟨.stackOverflow, nnn.toNat⟩
  | some t => .next (t.setPc (addressOf nnn))

end Sys2Proof.Machine
end

