-- ==== Sys2Proof/Machine/Step.lean ====
section
/-! DEFINITION. One step of the machine (30_encoding.md R83), and the placing of a word the next step fetches. -/

namespace Sys2Proof.Machine

/-- `Step()` (30_encoding.md R83): a faulted machine is quiescent; else fetch, decode, execute, tick. -/
def step (s : State) : Host.Outcome State Fault Refusal :=
  match s.fault with
  | some _ => .next s
  | none =>
    match s.fetch with
    | .error r => .next (s.enterFault r none)
    | .ok w =>
      match decodeWord w with
      | .error _ => .next (s.enterFault (decodeRaises w) (some w))
      | .ok i => s.finishResult (exec i (s.begin w))

/-- `s` with the word `w` of opcode_table.json stored where `step` fetches next. Every instruction is one 16-bit
word, so `nbits` is 16 at most and adds nothing to `w`. A faulted machine fetches nothing and `pc` may be past
memory, so the fault is cleared and such a `pc` moved to 0x200. -/
def State.withFetchWord (s : State) (nbits w : Nat) : State :=
  s.readyToFetch.placeWord (BitVec.ofNat 16 (w % 2 ^ nbits))

end Sys2Proof.Machine
end

