-- ==== Sys2Proof/Machine/Ports.lean ====
section
/-! DEFINITION. The block's ports: the host's requests between steps, and what it gets back (00_scope.md R9,
70_reset_and_hazards.md R294). -/

namespace Sys2Proof.Machine

/-- What `load_req` carries: bytes, or a read error of the host's byte source (60_exceptions.md R247). -/
inductive LoadSource where
  | bytes (bs : List Byte)
  | readError
  deriving DecidableEq, Repr

/-- The port `load_status` (00_scope.md R9). -/
inductive LoadStatus where
  | ok
  | programTooLarge
  | ioError
  deriving DecidableEq, Repr

/-- A request of the host's. The block serves one at a time, between steps (00_scope.md R9,
70_reset_and_hazards.md R294). -/
inductive Request where
  /-- `init_req`. -/
  | init
  /-- `load_req`. -/
  | load (src : LoadSource)
  /-- `step_req`, with the byte driven on `rand_in`. -/
  | step (rand : Byte)
  /-- `tick_req`. -/
  | tick
  /-- The host drives `keypad_in`. -/
  | setKeypad (k : Keypad)
  /-- The host drives `cfg_in`. -/
  | setConfig (q : Quirks)
  deriving DecidableEq, Repr

/-- What the host gets back. -/
inductive Reply where
  | none
  /-- `load_status`. -/
  | loaded (st : LoadStatus)
  /-- `status_out`: none for `Ok`, else the fault record. -/
  | status (f : Option FaultRecord)
  deriving DecidableEq, Repr

/-- The port `fb_out`. -/
def State.fbOut (s : State) : Display := s.display

/-- The port `delay_out`. -/
def State.delayOut (s : State) : Byte := s.delay

/-- The port `sound_out`. -/
def State.soundOut (s : State) : Byte := s.sound

/-- The port `status_out` (10_state.md R32). -/
def State.statusOut (s : State) : Option FaultRecord := s.fault

/-- `LoadProgram(src)` (70_reset_and_hazards.md R281). -/
def State.loadProgram (s : State) : LoadSource → LoadStatus × State
  | .readError => (.ioError, s)
  | .bytes bs =>
    if maxProgramSize < bs.length then (.programTooLarge, s)
    else (.ok, { s with mem := s.mem.writeList s.params.font programBase bs })

/-- `tick_req`: one tick in `External` mode (60_exceptions.md R252). Ignored by a faulted machine
(60_exceptions.md R242) and in `PerStep` mode, where it is not used (00_scope.md R9, assumption log 21). -/
def State.externalTick (s : State) : State :=
  match s.fault, s.params.timerTickSource with
  | none, .external => s.timerTick
  | none, .perStep => s
  | some _, _ => s

/-- `step_req`: the host drives `rand_in` and the core performs one step. The last two outcomes are never
answered. -/
def State.stepRequest (s : State) (rand : Byte) : State :=
  match step { s with randIn := rand } with
  | .next t => t
  | .fault _ => s
  | .refused _ => s

/-- One request served (70_reset_and_hazards.md R294). -/
def State.serve (s : State) : Request → Reply × State
  | .init => (.none, s.initialize)
  | .load src => (.loaded (s.loadProgram src).1, (s.loadProgram src).2)
  | .step rand => (.status (s.stepRequest rand).statusOut, s.stepRequest rand)
  | .tick => (.none, s.externalTick)
  | .setKeypad k => (.none, { s with keypadIn := k })
  | .setConfig q => (.none, { s with cfgIn := q })

/-- A run: the host's requests in order (70_reset_and_hazards.md R293). -/
def State.serveAll : State → List Request → State
  | s, [] => s
  | s, r :: rs => State.serveAll (s.serve r).2 rs

end Sys2Proof.Machine
end

