-- ==== Sys2Proof/Safety.lean ====
section
/-! DEFINITION. What counts as a safe run, the model's invariant, and the terms the claims are stated in. -/

namespace Sys2Proof.Machine

/-! ### The end of a run (70_reset_and_hazards.md R293) -/

/-- The bad end: a fault is recorded. -/
abbrev State.faulted (s : State) : Prop := s.fault ≠ none

/-- The safe runs are those that record no fault. -/
abbrev State.safe (s : State) : Prop := s.fault = none

/-- Parked: the word at `pc` is a jump to itself, and it can be fetched. -/
abbrev State.parked (s : State) : Prop :=
  s.pc.toNat + 1 < memorySize ∧ fieldF (s.wordAt s.pc.toNat) = 1 ∧
    addressOf (fieldNNN (s.wordAt s.pc.toNat)) = s.pc

/-! ### The invariant -/

/-- Memory is canonical, and only addresses that programs may write are listed: the font region holds FONT and
nothing lies outside the 4096 bytes (20_memory.md R50, R53). -/
abbrev State.memoryInv (s : State) : Prop :=
  Memory.wf s.params.font s.mem ∧ ∀ c ∈ s.mem, fontSize ≤ c.1 ∧ c.1 < memorySize

/-- The range of `pc`, and of what the stack holds (10_state.md R24). -/
abbrev State.pcInv (s : State) : Prop :=
  s.pc.toNat ≤ 0x10FE ∧ ∀ i : Fin 16, (s.stack[i.val]).toNat ≤ 0x1000

/-- What a fault record says of the state that holds it (10_state.md R32, 60_exceptions.md R240, R241). -/
abbrev State.faultInv (s : State) : Prop :=
  ∀ r ∈ s.fault, r.fetchPc = s.pc ∧ r.detail < 2 ^ 17 ∧ (r.word = none ↔ r.kind = .outOfBoundsFetch)

/-- The invariant of every run from reset. -/
abbrev State.Inv (s : State) : Prop := s.memoryInv ∧ s.pcInv ∧ s.faultInv

/-! ### Frames -/

/-- Every byte of memory reads as before. -/
def SameMemory (s t : State) : Prop := ∀ a, t.byteAt a = s.byteAt a

/-- Every register but the listed ones is unchanged. -/
def RegsKept (s t : State) (dest : List RegIdx) : Prop := ∀ r, r ∉ dest → t.getV r = s.getV r

/-- Nothing changed but the listed registers: every other register, `index`, `pc`, the stack, the timers, the
keypad, the display, memory, the latch, the fault record, the ports and the parameters are as before. -/
def OnlyRegs (s t : State) (dest : List RegIdx) : Prop :=
  RegsKept s t dest ∧ SameMemory s t ∧ t = { s with v := t.v }

/-- Nothing changed but `pc`. -/
def OnlyPc (s t : State) : Prop := SameMemory s t ∧ t = { s with pc := t.pc }

/-- Every byte outside the `n` bytes from `a` reads as before. -/
def SameMemoryOutside (s t : State) (a n : Nat) : Prop := ∀ b, b < a ∨ a + n ≤ b → t.byteAt b = s.byteAt b

/-- A result for `V[x]` and a flag for VF, and nothing else changed: with X = F the parameter `VF_FLAG_LAST`
says which of the two VF ends as (42_alu.md R141). -/
def ResultAndFlag (s t : State) (x : RegIdx) (result flag : Nat) : Prop :=
  (x ≠ vfIdx → (t.getV x).toNat = result ∧ (t.getV vfIdx).toNat = flag) ∧
  (x = vfIdx → (t.getV vfIdx).toNat = if s.params.vfFlagLast then flag else result) ∧
  OnlyRegs s t [x, vfIdx]

/-- Two states that differ at most in the stack entries at and above `sp` (10_state.md R25, R35). -/
def SameButStale (s t : State) : Prop :=
  t = { s with stack := t.stack } ∧ ∀ i, i < s.sp.val → t.stack[i]? = s.stack[i]?

/-! ### Encoding -/

/-- Every word of a row decodes to the instruction its fields give. -/
def RowDecodes (mask pattern : Word) (i : Word → Instr) : Prop :=
  ∀ w : Word, w &&& mask = pattern → decodeWord w = .ok (i w)

/-! ### Sprites (44_draw.md R180) -/

/-- How many of `n` sprite rows from screen row `y0` are drawn. -/
def drawnRows (y0 n : Nat) : Nat := min n (32 - y0)

/-- The sprite bit that falls on pixel (x, y), for an `n`-row sprite at `index` drawn from (x0, y0). -/
def State.spriteBit (s : State) (x0 y0 n x y : Nat) : Bool :=
  x0 ≤ x && x < x0 + 8 && y0 ≤ y && y < y0 + n &&
    (s.byteAt (s.index.toNat + (y - y0))).getLsbD (7 - (x - x0))

/-! ### When an instruction raises (60_exceptions.md R240, R243) -/

/-- The first address past memory among `n ≥ 1` from `a`. -/
def overrun (a n : Nat) : Option Raised :=
  if a + n ≤ memorySize then none else some ⟨.outOfBoundsAccess, max a memorySize⟩

/-- The fault of writing the `n ≥ 1` bytes from `a`. -/
def storeFault (a n : Nat) : Option Raised := if a < fontSize then some ⟨.protectedWrite, a⟩ else overrun a n

/-- The fault of a key's or glyph's number. -/
def numberFault (b : Byte) (k : Fault) : Option Raised := if 15 < b.toNat then some ⟨k, b.toNat⟩ else none

/-- The fault an instruction that begins in `s` raises, if any, in closed form. -/
def expectedFault (s : State) : Instr → Option Raised
  | .cls | .ret | .jp _ => none
  | .call nnn => if s.sp.val = 16 then some ⟨.stackOverflow, nnn.toNat⟩ else none
  | .seImm _ _ | .sneImm _ _ | .seReg _ _ | .sneReg _ _ | .ldImm _ _ | .addImm _ _ => none
  | .ldReg _ _ | .orReg _ _ | .andReg _ _ | .xorReg _ _ | .addReg _ _ => none
  | .subReg _ _ | .shr _ _ | .subnReg _ _ | .shl _ _ => none
  | .ldIndex _ | .jpOffset _ | .rnd _ _ => none
  | .drw _ y n =>
    if drawnRows ((s.getV y).toNat % 32) n.val = 0 then none
    else overrun s.index.toNat (drawnRows ((s.getV y).toNat % 32) n.val)
  | .skp x | .sknp x => numberFault (s.getV x) .keyIndexRange
  | .ldFromDelay _ | .ldKey _ | .ldDelay _ | .ldSound _ | .addIndex _ => none
  | .ldGlyph x => numberFault (s.getV x) .glyphIndexRange
  | .storeBcd _ => storeFault s.index.toNat 3
  | .storeRegs x => storeFault s.index.toNat (x.val + 1)
  | .loadRegs x => overrun s.index.toNat (x.val + 1)

/-- The record an instruction that begins in `s` leaves when it raises `r`. -/
def raisedRecord (s : State) (r : Raised) : FaultRecord := ⟨r.kind, s.pc - 2, some s.opcode, r.detail⟩

end Sys2Proof.Machine

namespace Sys2Proof

/-! ### Who writes what (10_state.md R21, R38) -/

/-- The instructions that write VF as a flag. -/
def Instr.writesFlag : Instr → Bool
  | .addReg _ _ | .subReg _ _ | .shr _ _ | .subnReg _ _ | .shl _ _ | .drw _ _ _ | .addIndex _ => true
  | .cls | .ret | .jp _ | .call _ | .seImm _ _ | .sneImm _ _ | .seReg _ _ | .sneReg _ _ => false
  | .ldImm _ _ | .addImm _ _ | .ldReg _ _ | .orReg _ _ | .andReg _ _ | .xorReg _ _ => false
  | .ldIndex _ | .jpOffset _ | .rnd _ _ | .skp _ | .sknp _ | .ldFromDelay _ | .ldKey _ => false
  | .ldDelay _ | .ldSound _ | .ldGlyph _ | .storeBcd _ | .storeRegs _ | .loadRegs _ => false

/-- The registers an instruction names as destination. -/
def Instr.dests : Instr → List RegIdx
  | .ldImm x _ | .addImm x _ | .rnd x _ | .ldFromDelay x | .ldKey x => [x]
  | .ldReg x _ | .orReg x _ | .andReg x _ | .xorReg x _ | .addReg x _ => [x]
  | .subReg x _ | .shr x _ | .subnReg x _ | .shl x _ => [x]
  | .loadRegs x => (List.finRange 16).filter (· ≤ x)
  | .cls | .ret | .jp _ | .call _ | .seImm _ _ | .sneImm _ _ | .seReg _ _ | .sneReg _ _ => []
  | .ldIndex _ | .jpOffset _ | .drw _ _ _ | .skp _ | .sknp _ => []
  | .ldDelay _ | .ldSound _ | .addIndex _ | .ldGlyph _ | .storeBcd _ | .storeRegs _ => []

end Sys2Proof
end

