-- ==== Sys2Proof/Certificates/Slice0/Obligations.lean ====
section
/-! DEFINITION. The statements about the model, each with the rule or section of the spec it formalises. A
statement that rests on a decision the spec marks as its own, or on a choice of this model, says so and names the
decision or the assumption-log entry. -/

open Sys2Proof Sys2Proof.Machine

/-! ### Encoding and decoding -/

/-- Decoding an encoded instruction gives it back, as a word and at the front of any byte sequence
(30_encoding.md section 2 and 3). -/
def Obligations.DecodeAfterEncodeIsIdentity : Prop :=
  ∀ i : Instr, decodeWord (encode i) = .ok i ∧
    ∀ rest : List Byte, decodeBytes (encodeBytes i ++ rest) = .ok (i, rest)

/-- Every accepted word is the encoding of what it decodes to: no bit of it is dropped (30_encoding.md section 2,
"Don't-care bits"). -/
def Obligations.EncodeAfterDecodeIsIdentity : Prop :=
  ∀ (w : Word) (i : Instr), decodeWord w = .ok i → encode i = w

/-- The decoder accepts exactly the words of opcode_table.json, each as an instruction of a row it belongs to, and
refuses every other word as UnknownOpcode of that word. The widths of families 0 and 9 are the spec's decisions D5
and D6 (assumption log 10). -/
def Obligations.DecodeAcceptsExactlyTheTable : Prop :=
  ∀ w : Word,
    (legalWord w = true → ∃ i, decodeWord w = .ok i ∧ i.row ∈ opcodeTable ∧ i.row.accepts w = true) ∧
    (legalWord w = false → decodeWord w = .error (.unknownOpcode w))

/-- No word belongs to two rows of opcode_table.json (30_encoding.md section 2, derived there). -/
def Obligations.TableRowsAreDisjoint : Prop :=
  ∀ (w : Word) (r q : Row), r ∈ opcodeTable → q ∈ opcodeTable → r.accepts w = true → q.accepts w = true → r = q

/-- R81: the six fields of a word as unsigned numbers. -/
def Obligations.FieldsOfAWord : Prop :=
  ∀ w : Word,
    (fieldF w).toNat = w.toNat / 0x1000 ∧
    (fieldX w).val = w.toNat / 0x100 % 0x10 ∧
    (fieldY w).val = w.toNat / 0x10 % 0x10 ∧
    (fieldN w).toNat = w.toNat % 0x10 ∧
    (fieldNN w).toNat = w.toNat % 0x100 ∧
    (fieldNNN w).toNat = w.toNat % 0x1000

/-- Words written out from the encoding column of opcode_table.json decode to the instruction they stand for, and
unlisted words to none (30_encoding.md section 3, 95_test_vectors.md 2.1; families 0 and 9 by D5, D6). -/
def Obligations.SampleWordsDecode : Prop :=
  decodeWord 0b0000000011100000#16 = .ok .cls ∧
  decodeWord 0b0010001100000000#16 = .ok (.call 0x300) ∧
  decodeWord 0b1000000100100100#16 = .ok (.addReg 1 2) ∧
  decodeWord 0b1101101000010101#16 = .ok (.drw 10 1 5) ∧
  decodeWord 0b1110010110100001#16 = .ok (.sknp 5) ∧
  decodeWord 0b1111001001010101#16 = .ok (.storeRegs 2) ∧
  decodeWord 0x0123#16 = .error (.unknownOpcode 0x0123#16) ∧
  decodeWord 0x5001#16 = .error (.unknownOpcode 0x5001#16) ∧
  decodeWord 0x9121#16 = .error (.unknownOpcode 0x9121#16) ∧
  decodeWord 0x8128#16 = .error (.unknownOpcode 0x8128#16) ∧
  decodeWord 0xE1A2#16 = .error (.unknownOpcode 0xE1A2#16) ∧
  decodeWord 0xF1FF#16 = .error (.unknownOpcode 0xF1FF#16)

/-- R55: fetch combines the bytes at `pc` and `pc + 1` big-endian, at any `pc` inside memory and in every state;
and a loaded program's words are its file's byte pairs, high byte first. -/
def Obligations.FetchAndProgramFileAreBigEndian : Prop :=
  (∀ s : State, s.pc.toNat + 1 < 4096 → ∃ w, s.fetch = .ok w ∧
    w.toNat = (s.byteAt s.pc.toNat).toNat * 256 + (s.byteAt (s.pc.toNat + 1)).toNat) ∧
  (∀ (s : State) (bs : List Byte) (k : Nat) (hi lo : Byte), Memory.wf s.params.font s.mem → bs.length ≤ 3584 →
    bs[2 * k]? = some hi → bs[2 * k + 1]? = some lo →
    ((s.loadProgram (.bytes bs)).2.wordAt (0x200 + 2 * k)).toNat = hi.toNat * 256 + lo.toNat)

/-! ### The step -/

/-- When the bytes at `pc` decode to an instruction, the step is that instruction run after sampling the keypad,
latching the word and moving `pc` past it, and then the tick the mode asks for; when the instruction raised, the
step's beginning with the record (30_encoding.md section 2; the rollback is the spec's decision D2, log 9, and that
it takes in the keypad snapshot is this model's reading, log 5). -/
def Obligations.StepRunsTheDecodedInstruction : Prop :=
  ∀ (s t : State) (w : Word) (i : Instr), s.fault = none → s.pc.toNat + 1 < 4096 →
    w = wordOfBytes (s.byteAt s.pc.toNat) (s.byteAt (s.pc.toNat + 1)) → decodeWord w = .ok i →
    exec i { s with keypad := s.keypadIn, opcode := w, pc := s.pc + 2 } = .next t →
    (∀ r, t.fault = some r → step s = .next { s with fault := some r }) ∧
    (t.fault = none → s.params.timerTickSource = .perStep → step s = .next t.timerTick) ∧
    (t.fault = none → s.params.timerTickSource = .external → step s = .next t)

/-- A fetch past memory and a word that is no instruction leave the state as it was, with the record set: code 1,
no word and detail `pc`, or code 2, the word and detail the word (60_exceptions.md section 1; the record and the
rollback are the spec's decisions D2 and D3, log 9). -/
def Obligations.FetchAndDecodeFaultsAreRecorded : Prop :=
  (∀ s : State, s.fault = none → 4096 ≤ s.pc.toNat + 1 →
    step s = .next { s with fault := some ⟨.outOfBoundsFetch, s.pc, none, s.pc.toNat⟩ }) ∧
  (∀ (s : State) (w : Word), s.fault = none → s.pc.toNat + 1 < 4096 →
    w = wordOfBytes (s.byteAt s.pc.toNat) (s.byteAt (s.pc.toNat + 1)) → legalWord w = false →
    step s = .next { s with fault := some ⟨.unknownOpcode, s.pc, some w, w.toNat⟩ }) ∧
  Fault.code .outOfBoundsFetch = 1 ∧ Fault.code .unknownOpcode = 2

/-- Every step of every state answers a next state: nothing is refused and every fault is taken (30_encoding.md
section 2, 60_exceptions.md section 1; that a fault is a next state is this model's reading, log 1). -/
def Obligations.StepAlwaysAnswersNext : Prop := ∀ s : State, ∃ t, step s = .next t

/-- A step that faults changes the fault record and nothing else, and the record names the step: its `pc`, and its
word unless the fetch itself raised (60_exceptions.md section 1; the spec's decisions D2, D3, log 9). -/
def Obligations.FaultingStepChangesOnlyTheRecord : Prop :=
  ∀ (s t : State) (r : FaultRecord), s.fault = none → step s = .next t → t.fault = some r →
    t = { s with fault := some r } ∧ r.fetchPc = s.pc ∧
    (r.word = none ↔ r.kind = .outOfBoundsFetch) ∧
    (r.kind ≠ .outOfBoundsFetch → r.word = some (s.wordAt s.pc.toNat))

/-- A faulted machine is quiescent: a step changes nothing and `status_out` reports the record, and a tick is
ignored. Every request but `initialize` keeps the record, and `initialize` clears it. A load still acts on memory:
at most 3584 bytes are stored from 0x200 up and nothing else changes (60_exceptions.md section 1; the spec's decisions
D3, log 9, and D25, log 20). -/
def Obligations.FaultedMachineIsQuiescent : Prop :=
  ∀ (s : State) (r : FaultRecord), s.fault = some r →
    step s = .next s ∧
    (∀ b, (s.serve (.step b)).1 = .status (some r) ∧ (s.serve (.step b)).2 = { s with randIn := b }) ∧
    (s.serve .tick).2 = s ∧
    (∀ q, q ≠ Request.init → (s.serve q).2.fault = some r) ∧
    (∀ bs : List Byte, Memory.wf s.params.font s.mem → bs.length ≤ 3584 →
      ∃ t, s.serve (.load (.bytes bs)) = (.loaded .ok, t) ∧
        (∀ i, i < bs.length → bs[i]? = some (t.byteAt (0x200 + i))) ∧
        SameMemoryOutside s t 0x200 bs.length ∧ t = { s with mem := t.mem }) ∧
    (s.serve .init).2.fault = none

/-- Whether a step faults, and with which record, does not depend on the keypad, the configuration or the random
byte at the ports (60_exceptions.md section 1, derived there from the table of fault kinds). -/
def Obligations.FaultsDoNotDependOnTheInputs : Prop :=
  ∀ (s t t' : State) (k : Keypad) (q : Quirks) (b : Byte) (n : Nat), step s = .next t →
    step { s with keypadIn := k, cfgIn := q, randIn := b, draws := n } = .next t' → t'.fault = t.fault

/-- Every instruction raises exactly in the cases of the fault table, with the first address or the value it names
as the detail, and then leaves the fetch advance undone and the record; in every other case it completes and
records no fault (60_exceptions.md section 1; OutOfBoundsAccess, ProtectedWrite, KeyIndexRange and GlyphIndexRange
are the spec's decisions D7 to D10, logs 11 to 13; the rollback and the record are D2 and D3, log 9; the advance
undone by `pc - 2` is log 15). -/
def Obligations.InstructionsRaiseExactlyAsTabled : Prop :=
  ∀ (i : Instr) (s : State),
    (∀ r, expectedFault s i = some r →
      exec i s = .next { s with pc := s.pc - 2, fault := some ⟨r.kind, s.pc - 2, some s.opcode, r.detail⟩ }) ∧
    (expectedFault s i = none → ∃ t, exec i s = .next t ∧ t.fault = s.fault)

/-! ### Families 0x0, 0x1, 0x2 -/

/-- R100: 00E0 makes every display cell false and changes nothing else. -/
def Obligations.ClearDisplay : Prop :=
  RowDecodes 0xFFFF 0x00E0 (fun _ => .cls) ∧
  ∀ s : State, ∃ t, exec .cls s = .next t ∧ (∀ p, p < 2048 → Display.cell t.display p = false) ∧
    SameMemory s t ∧ t = { s with display := t.display }

/-- 00EE pops into `pc`, keeps the popped entry in place, and is a no-op on an empty stack. After a return to
0x1000 the next fetch raises (40_sys_jump_call.md; that the popped entry stays is the spec's decision D27, log 20). -/
def Obligations.ReturnFromSubroutine : Prop :=
  RowDecodes 0xFFFF 0x00EE (fun _ => .ret) ∧
  (∀ s : State, s.sp.val = 0 → exec .ret s = .next s) ∧
  (∀ s : State, 0 < s.sp.val → ∃ t, exec .ret s = .next t ∧ t.sp.val = s.sp.val - 1 ∧
    s.stack[s.sp.val - 1]? = some t.pc ∧ SameMemory s t ∧ t = { s with sp := t.sp, pc := t.pc } ∧
    (t.pc = 0x1000 → t.fetch = .error ⟨.outOfBoundsFetch, 0x1000⟩))

/-- R102: 1NNN jumps to NNN, whatever it is; at 0xFFF the next fetch raises, and a step that jumps to its own
address leaves `pc` there and ticks the timers in PerStep mode. -/
def Obligations.JumpToAddress : Prop :=
  RowDecodes 0xF000 0x1000 (fun w => .jp (fieldNNN w)) ∧
  (∀ (nnn : BitVec 12) (s : State), ∃ t, exec (.jp nnn) s = .next t ∧ t.pc.toNat = nnn.toNat ∧ OnlyPc s t ∧
    (nnn = 0xFFF → t.fetch = .error ⟨.outOfBoundsFetch, 0xFFF⟩)) ∧
  (∀ (s : State) (w : Word) (nnn : BitVec 12), s.fault = none → s.params.timerTickSource = .perStep →
    s.fetch = .ok w → decodeWord w = .ok (.jp nnn) → nnn.toNat = s.pc.toNat →
    step s = .next { s.timerTick with keypad := s.keypadIn, opcode := w })

/-- 2NNN pushes the address of the next word and jumps, when fewer than 16 entries are present; when 16 are, it
raises StackOverflow(NNN) (40_sys_jump_call.md, 60_exceptions.md section 1; the rollback and the record are the
spec's decisions D2 and D3, log 9, with the advance undone by `pc - 2`, log 15; the entry's width is D27, log 20). -/
def Obligations.CallPushesAndJumps : Prop :=
  (∀ (nnn : BitVec 12) (s : State), s.sp.val < 16 → ∃ t, exec (.call nnn) s = .next t ∧
    t.sp.val = s.sp.val + 1 ∧ t.stack[s.sp.val]? = some s.pc ∧ (∀ i, i ≠ s.sp.val → t.stack[i]? = s.stack[i]?) ∧
    t.pc.toNat = nnn.toNat ∧ SameMemory s t ∧ t = { s with sp := t.sp, stack := t.stack, pc := t.pc }) ∧
  (∀ (nnn : BitVec 12) (s : State), s.sp.val = 16 → exec (.call nnn) s =
    .next { s with pc := s.pc - 2, fault := some ⟨.stackOverflow, s.pc - 2, some s.opcode, nnn.toNat⟩ })

/-- A return right after a call, at any depth below 16, comes back to the instruction after the call with the
stack as it was but for the stale entry (95_test_vectors.md E5). -/
def Obligations.ReturnUndoesCall : Prop :=
  ∀ (nnn : BitVec 12) (s : State), s.sp.val < 16 → ∃ t u, exec (.call nnn) s = .next t ∧
    exec .ret t = .next u ∧ u.pc = s.pc ∧ u.sp = s.sp ∧ SameMemory s u ∧ SameButStale s u

/-! ### Families 0x3, 0x4, 0x5, 0x9, 0x6, 0x7 -/

/-- R120, R121, R122, and 9XY0 with them: the skips move `pc` past one more word when their comparison holds and
change nothing else; a word 5XYN with N ≠ 0 is no instruction, and at 0x1002, where a skip at 0xFFE ends, the next
fetch raises. -/
def Obligations.CompareAndSkip : Prop :=
  RowDecodes 0xF000 0x3000 (fun w => .seImm (fieldX w) (fieldNN w)) ∧
  RowDecodes 0xF000 0x4000 (fun w => .sneImm (fieldX w) (fieldNN w)) ∧
  RowDecodes 0xF00F 0x5000 (fun w => .seReg (fieldX w) (fieldY w)) ∧
  RowDecodes 0xF00F 0x9000 (fun w => .sneReg (fieldX w) (fieldY w)) ∧
  (∀ w : Word, fieldF w = 5 → fieldN w ≠ 0 → decodeWord w = .error (.unknownOpcode w)) ∧
  (∀ t : State, t.pc = 0x1002 → t.fetch = .error ⟨.outOfBoundsFetch, 0x1002⟩) ∧
  ∀ (x y : RegIdx) (nn : Byte) (s : State),
    (∃ t, exec (.seImm x nn) s = .next t ∧ OnlyPc s t ∧ t.pc = if s.getV x = nn then s.pc + 2 else s.pc) ∧
    (∃ t, exec (.sneImm x nn) s = .next t ∧ OnlyPc s t ∧ t.pc = if s.getV x = nn then s.pc else s.pc + 2) ∧
    (∃ t, exec (.seReg x y) s = .next t ∧ OnlyPc s t ∧ t.pc = if s.getV x = s.getV y then s.pc + 2 else s.pc) ∧
    (∃ t, exec (.sneReg x y) s = .next t ∧ OnlyPc s t ∧ t.pc = if s.getV x = s.getV y then s.pc else s.pc + 2)

/-- R124, R125, R142: 6XNN, 7XNN (modulo 256, no flag) and 8XY0 write `V[X]` and nothing else. -/
def Obligations.LoadAddImmediateAndCopy : Prop :=
  RowDecodes 0xF000 0x6000 (fun w => .ldImm (fieldX w) (fieldNN w)) ∧
  RowDecodes 0xF000 0x7000 (fun w => .addImm (fieldX w) (fieldNN w)) ∧
  RowDecodes 0xF00F 0x8000 (fun w => .ldReg (fieldX w) (fieldY w)) ∧
  ∀ (x y : RegIdx) (nn : Byte) (s : State),
    (∃ t, exec (.ldImm x nn) s = .next t ∧ OnlyRegs s t [x] ∧ t.getV x = nn) ∧
    (∃ t, exec (.addImm x nn) s = .next t ∧ OnlyRegs s t [x] ∧
      (t.getV x).toNat = ((s.getV x).toNat + nn.toNat) % 256) ∧
    (∃ t, exec (.ldReg x y) s = .next t ∧ OnlyRegs s t [x] ∧ t.getV x = s.getV y)

/-! ### Family 0x8 -/

/-- 8XY1, 8XY2 and 8XY3 combine bit by bit, write `V[X]` and leave VF alone unless X = F (42_alu.md section 2; that
no flag is written is the spec's decision D28, log 20). -/
def Obligations.LogicOperationsWriteNoFlag : Prop :=
  ∀ (x y : RegIdx) (s : State),
    (∃ t, exec (.orReg x y) s = .next t ∧ OnlyRegs s t [x] ∧
      ∀ k, (t.getV x).getLsbD k = ((s.getV x).getLsbD k || (s.getV y).getLsbD k)) ∧
    (∃ t, exec (.andReg x y) s = .next t ∧ OnlyRegs s t [x] ∧
      ∀ k, (t.getV x).getLsbD k = ((s.getV x).getLsbD k && (s.getV y).getLsbD k)) ∧
    (∃ t, exec (.xorReg x y) s = .next t ∧ OnlyRegs s t [x] ∧
      ∀ k, (t.getV x).getLsbD k = ((s.getV x).getLsbD k ^^ (s.getV y).getLsbD k))

/-- 8XY4: the sum modulo 256 and the carry, for every X and Y, for both values of VF_FLAG_LAST (42_alu.md; operands
first is the spec's decision D11, log 14; the parameter is D12, log 7). -/
def Obligations.AddWithCarry : Prop :=
  ∀ (x y : RegIdx) (s : State), ∃ t, exec (.addReg x y) s = .next t ∧
    ResultAndFlag s t x (((s.getV x).toNat + (s.getV y).toNat) % 256)
      (if 255 < (s.getV x).toNat + (s.getV y).toNat then 1 else 0)

/-- 8XY5 and 8XY7: the difference modulo 256 and NOT borrow, for every X and Y, for both values of VF_FLAG_LAST
(42_alu.md; D11, log 14; D12, log 7). -/
def Obligations.SubtractWithNotBorrow : Prop :=
  ∀ (x y : RegIdx) (s : State),
    (∃ t, exec (.subReg x y) s = .next t ∧
      ResultAndFlag s t x (((s.getV x).toNat + 256 - (s.getV y).toNat) % 256)
        (if (s.getV x).toNat < (s.getV y).toNat then 0 else 1)) ∧
    (∃ t, exec (.subnReg x y) s = .next t ∧
      ResultAndFlag s t x (((s.getV y).toNat + 256 - (s.getV x).toNat) % 256)
        (if (s.getV y).toNat < (s.getV x).toNat then 0 else 1))

/-- 8XY6 and 8XYE: the shift by one of `V[X]`, or of `V[Y]` under shift_quirk, and the bit shifted out
(42_alu.md; D11, log 14; D12, log 7). -/
def Obligations.ShiftsByOne : Prop :=
  ∀ (x y : RegIdx) (s : State) (src : Byte), src = (if s.cfgIn.shiftQuirk then s.getV y else s.getV x) →
    (∃ t, exec (.shr x y) s = .next t ∧ ResultAndFlag s t x (src.toNat / 2) (src.toNat % 2)) ∧
    (∃ t, exec (.shl x y) s = .next t ∧ ResultAndFlag s t x (src.toNat * 2 % 256) (src.toNat / 128))

/-! ### Families 0xA, 0xB, 0xC -/

/-- R170: ANNN writes NNN to `index`, unchecked, and changes nothing else. -/
def Obligations.SetIndex : Prop :=
  RowDecodes 0xF000 0xA000 (fun w => .ldIndex (fieldNNN w)) ∧
  ∀ (nnn : BitVec 12) (s : State), ∃ t, exec (.ldIndex nnn) s = .next t ∧ t.index.toNat = nnn.toNat ∧
    SameMemory s t ∧ t = { s with index := t.index }

/-- BNNN jumps to NNN plus `V[0]`, or under jump_quirk plus the register NNN's top nibble names; the sum is not
masked (43_index_offset_random.md; no wrap is the spec's decision D7, log 11). -/
def Obligations.JumpWithOffset : Prop :=
  ∀ (nnn : BitVec 12) (x : RegIdx) (s : State), x.val = nnn.toNat / 256 → ∃ t, exec (.jpOffset nnn) s = .next t ∧
    OnlyPc s t ∧ t.pc.toNat = nnn.toNat + (if s.cfgIn.jumpQuirk then s.getV x else s.getV 0).toNat

/-- CXNN writes the byte at the port AND NN, whatever the byte: a bit NN clears is 0, a bit it sets is the draw's.
Nothing else changes but the port, which then holds another byte (43_index_offset_random.md; the free draw is the
spec's decision D15; how the port moves on is this model's choice, log 4). -/
def Obligations.RandomByteMasked : Prop :=
  ∀ (x : RegIdx) (nn : Byte) (s : State), ∃ t, exec (.rnd x nn) s = .next t ∧
    (∀ k, (t.getV x).getLsbD k = (s.randIn.getLsbD k && nn.getLsbD k)) ∧ RegsKept s t [x] ∧ SameMemory s t ∧
    t = { s with v := t.v, randIn := t.randIn, draws := t.draws }

/-! ### Family 0xD -/

/-- DXYN, whenever every drawn row can be read: each pixel is XORed with the sprite bit that falls on it, VF tells
of a collision, and nothing else changes. The origin wraps and the sprite clips; operands are read before VF is
reset (44_draw.md; D11, log 14; rows past the bottom are not read, D16, and bit 7 is leftmost, D17, log 17; the
bound on data addresses is D7, log 11). -/
def Obligations.DrawXorsTheSprite : Prop :=
  ∀ (x y : RegIdx) (n : Fin 16) (s : State) (x0 y0 : Nat),
    x0 = (s.getV x).toNat % 64 → y0 = (s.getV y).toNat % 32 →
    (drawnRows y0 n.val = 0 ∨ s.dataAddress + drawnRows y0 n.val ≤ 4096) →
    ∃ t, exec (.drw x y n) s = .next t ∧
      (∀ px py, px < 64 → py < 32 → t.pixel px py = (s.pixel px py ^^ s.spriteBit x0 y0 n.val px py)) ∧
      ((∃ px py, px < 64 ∧ py < 32 ∧ s.pixel px py = true ∧ s.spriteBit x0 y0 n.val px py = true) →
        t.getV vfIdx = 1) ∧
      ((∀ px py, px < 64 → py < 32 → s.pixel px py = true → s.spriteBit x0 y0 n.val px py = false) →
        t.getV vfIdx = 0) ∧
      RegsKept s t [vfIdx] ∧ SameMemory s t ∧ t = { s with v := t.v, display := t.display }

/-- Drawing the same sprite twice at the same place, with the registers of the first draw, restores the display;
the second draw reports a collision exactly when the sprite has a bit of 1 on a pixel of the screen that was dark
before the first draw, so that the first draw lit it (44_draw.md, its pseudocode; its corner-case sentence leaves
the last condition out, log 28; clipped bits do not count, 90_conflicts.md C10; D7, log 11; D11, log 14; D16, D17,
log 17). -/
def Obligations.DrawTwiceRestoresTheDisplay : Prop :=
  ∀ (x y : RegIdx) (n : Fin 16) (s : State) (x0 y0 : Nat),
    x0 = (s.getV x).toNat % 64 → y0 = (s.getV y).toNat % 32 →
    (drawnRows y0 n.val = 0 ∨ s.dataAddress + drawnRows y0 n.val ≤ 4096) →
    ∃ t u, exec (.drw x y n) s = .next t ∧ exec (.drw x y n) { t with v := s.v } = .next u ∧
      u.display = s.display ∧
      (u.getV vfIdx = 1 ↔ ∃ px py, px < 64 ∧ py < 32 ∧
        s.spriteBit x0 y0 n.val px py = true ∧ s.pixel px py = false)

/-! ### Family 0xE -/

/-- EX9E and EXA1 test the sampled keypad at the key `V[X]` names, all of it, and skip on down or up; a number
above 15 raises KeyIndexRange (45_keys.md, 60_exceptions.md section 1; the range fault is the spec's decision D10,
log 13; the rollback and the record are D2 and D3, log 9; the advance undone by `pc - 2` is log 15). -/
def Obligations.KeySkips : Prop :=
  (∀ (x : RegIdx) (s : State) (k : Fin 16), (s.getV x).toNat = k.val →
    (∃ t, exec (.skp x) s = .next t ∧ OnlyPc s t ∧ t.pc = if s.keypad[k.val] then s.pc + 2 else s.pc) ∧
    (∃ t, exec (.sknp x) s = .next t ∧ OnlyPc s t ∧ t.pc = if s.keypad[k.val] then s.pc else s.pc + 2)) ∧
  (∀ (x : RegIdx) (s : State), 15 < (s.getV x).toNat → ∀ i, (i = Instr.skp x ∨ i = Instr.sknp x) →
    exec i s = .next { s with
      pc := s.pc - 2, fault := some ⟨.keyIndexRange, s.pc - 2, some s.opcode, (s.getV x).toNat⟩ })

/-! ### Family 0xF -/

/-- FX18, FX15 and FX07 (46_misc.md): FX18 writes `sound`, which the tick of the same step then decrements in PerStep
mode; FX15 does the same to `delay`; FX07 reads `delay` as it is before the tick. Nothing else changes. -/
def Obligations.TimerInstructions : Prop :=
  RowDecodes 0xF0FF 0xF018 (fun w => .ldSound (fieldX w)) ∧
  ∀ (x : RegIdx) (s : State),
    (∃ t, exec (.ldSound x) s = .next t ∧ t.sound = s.getV x ∧ SameMemory s t ∧ t = { s with sound := t.sound } ∧
      (s.params.timerTickSource = .perStep → t.endOfStep.sound.toNat = (s.getV x).toNat - 1) ∧
      (s.params.timerTickSource = .external → t.endOfStep.sound = s.getV x)) ∧
    (∃ t, exec (.ldDelay x) s = .next t ∧ t.delay = s.getV x ∧ SameMemory s t ∧ t = { s with delay := t.delay } ∧
      (s.params.timerTickSource = .perStep → t.endOfStep.delay.toNat = (s.getV x).toNat - 1) ∧
      (s.params.timerTickSource = .external → t.endOfStep.delay = s.getV x)) ∧
    (∃ t, exec (.ldFromDelay x) s = .next t ∧ t.getV x = s.delay ∧ OnlyRegs s t [x])

/-- R211: FX0A takes the lowest key that is down; with none down it rewinds `pc` by 2, so that the step it ran in
leaves `pc` at the same instruction and has changed nothing but the sampled keypad and the latch, and ticked the
timers in PerStep mode. -/
def Obligations.WaitForKey : Prop :=
  RowDecodes 0xF0FF 0xF00A (fun w => .ldKey (fieldX w)) ∧
  (∀ (x : RegIdx) (s : State) (k : Fin 16), s.keypad[k.val] = true →
    (∀ j : Fin 16, j < k → s.keypad[j.val] = false) →
    ∃ t, exec (.ldKey x) s = .next t ∧ OnlyRegs s t [x] ∧ (t.getV x).toNat = k.val) ∧
  (∀ (x : RegIdx) (s : State), (∀ j : Fin 16, s.keypad[j.val] = false) →
    ∃ t, exec (.ldKey x) s = .next t ∧ OnlyPc s t ∧ t.pc = s.pc - 2 ∧
      (2 ≤ s.pc.toNat → t.pc.toNat = s.pc.toNat - 2)) ∧
  (∀ (x : RegIdx) (s : State) (w : Word), s.fault = none → s.fetch = .ok w → decodeWord w = .ok (.ldKey x) →
    (∀ j : Fin 16, s.keypadIn[j.val] = false) →
    (s.params.timerTickSource = .perStep → step s = .next { s.timerTick with keypad := s.keypadIn, opcode := w }) ∧
    (s.params.timerTickSource = .external → step s = .next { s with keypad := s.keypadIn, opcode := w }))

/-- FX1E adds `V[X]` to `index` in 16 bits and sets VF by the new `index`, not by a carry; with X = F the old VF is
the addend (46_misc.md; D11, log 14; the wrap is the spec's decision D13, log 16). -/
def Obligations.AddToIndex : Prop :=
  ∀ (x : RegIdx) (s : State), ∃ t, exec (.addIndex x) s = .next t ∧
    t.index.toNat = (s.index.toNat + (s.getV x).toNat) % 65536 ∧
    t.getV vfIdx = (if 0x1000 ≤ t.index.toNat then 1 else 0) ∧
    RegsKept s t [vfIdx] ∧ SameMemory s t ∧ t = { s with v := t.v, index := t.index }

/-- FX29 points `index` at the glyph of the digit `V[X]`, whose five bytes the invariant's memory holds as FONT's;
a digit above 15 raises GlyphIndexRange (46_misc.md, 60_exceptions.md section 1; the fault is the spec's decision D9,
log 13; the rollback and the record are D2 and D3, log 9; the advance undone by `pc - 2` is log 15). -/
def Obligations.GlyphAddress : Prop :=
  (∀ (x : RegIdx) (s : State), (s.getV x).toNat ≤ 15 → ∃ t, exec (.ldGlyph x) s = .next t ∧
    t.index.toNat = 5 * (s.getV x).toNat ∧ SameMemory s t ∧ t = { s with index := t.index } ∧
    (s.Inv → ∀ j, j < 5 → s.params.font[5 * (s.getV x).toNat + j]? = some (t.byteAt (t.index.toNat + j)))) ∧
  (∀ (x : RegIdx) (s : State), 15 < (s.getV x).toNat → exec (.ldGlyph x) s = .next { s with
      pc := s.pc - 2, fault := some ⟨.glyphIndexRange, s.pc - 2, some s.opcode, (s.getV x).toNat⟩ })

/-- FX33 stores the three decimal digits, hundreds at the lowest address, whenever its three bytes are writable,
and changes no other byte and nothing else (46_misc.md; the bounds are the spec's decisions D7 and D8, logs 11
and 12). -/
def Obligations.StoreDecimalDigits : Prop :=
  ∀ (x : RegIdx) (s : State), Memory.wf s.params.font s.mem → 0x50 ≤ s.dataAddress → s.dataAddress + 3 ≤ 4096 →
    ∃ t, exec (.storeBcd x) s = .next t ∧
      (t.byteAt s.dataAddress).toNat = (s.getV x).toNat / 100 ∧
      (t.byteAt (s.dataAddress + 1)).toNat = (s.getV x).toNat / 10 % 10 ∧
      (t.byteAt (s.dataAddress + 2)).toNat = (s.getV x).toNat % 10 ∧
      SameMemoryOutside s t s.dataAddress 3 ∧ t = { s with mem := t.mem }

/-- FX55 stores `V[0]` to `V[X]` at ascending addresses, whenever its X + 1 bytes are writable, moves `index` past
them under index_increment_quirk only, and changes no other byte and nothing else (46_misc.md; D7, D8, logs 11 and
12; the wrap of the increment is D14, log 16). -/
def Obligations.StoreRegisters : Prop :=
  ∀ (x : RegIdx) (s : State), Memory.wf s.params.font s.mem → 0x50 ≤ s.dataAddress →
    s.dataAddress + x.val + 1 ≤ 4096 →
    ∃ t, exec (.storeRegs x) s = .next t ∧
      (∀ i : RegIdx, i ≤ x → t.byteAt (s.dataAddress + i.val) = s.getV i) ∧
      t.index.toNat = (if s.cfgIn.indexIncrementQuirk then (s.index.toNat + x.val + 1) % 65536 else s.index.toNat) ∧
      SameMemoryOutside s t s.dataAddress (x.val + 1) ∧ t = { s with mem := t.mem, index := t.index }

/-- FX65 loads `V[0]` to `V[X]` from ascending addresses, whenever its X + 1 bytes lie in memory (the font region
too), moves `index` past them under index_increment_quirk only, and changes nothing else (46_misc.md; D7, log 11;
D14, log 16). -/
def Obligations.LoadRegisters : Prop :=
  ∀ (x : RegIdx) (s : State), s.dataAddress + x.val + 1 ≤ 4096 →
    ∃ t, exec (.loadRegs x) s = .next t ∧
      (∀ i : RegIdx, i ≤ x → t.getV i = s.byteAt (s.dataAddress + i.val)) ∧
      (∀ i : RegIdx, x < i → t.getV i = s.getV i) ∧
      t.index.toNat = (if s.cfgIn.indexIncrementQuirk then (s.index.toNat + x.val + 1) % 65536 else s.index.toNat) ∧
      SameMemory s t ∧ t = { s with v := t.v, index := t.index }

/-- A word stored by FX55 is what the next fetch of its address reads (20_memory.md section 4, derived there;
D7, D8, logs 11 and 12). -/
def Obligations.StoredWordIsFetched : Prop :=
  ∀ (x i j : RegIdx) (s : State) (a : Word), Memory.wf s.params.font s.mem → 0x50 ≤ s.dataAddress →
    s.dataAddress + x.val + 1 ≤ 4096 → j ≤ x → i.val + 1 = j.val → a.toNat = s.dataAddress + i.val →
    ∃ t, exec (.storeRegs x) s = .next t ∧
      (t.setPc a).fetch = .ok (wordOfBytes (s.getV i) (s.getV j))

/-! ### Timers -/

/-- R251: a tick takes each nonzero timer down by one, independently, and touches nothing else; in PerStep mode a
step that completes without a fault performs exactly one, after its instruction. -/
def Obligations.TimerTick : Prop :=
  (∀ s : State, s.timerTick.delay.toNat = s.delay.toNat - 1 ∧ s.timerTick.sound.toNat = s.sound.toNat - 1 ∧
    s.timerTick = { s with delay := s.timerTick.delay, sound := s.timerTick.sound }) ∧
  (∀ s t : State, s.params.timerTickSource = .perStep → s.fault = none → step s = .next t → t.fault = none →
    ∃ w i u, s.fetch = .ok w ∧ decodeWord w = .ok i ∧ exec i (s.begin w) = .next u ∧ u.fault = none ∧
      t = u.timerTick)

/-- Ticks count a timer down to 0 and keep it there: after k ticks a timer of n holds max(n - k, 0)
(60_exceptions.md section 3, 70_reset_and_hazards.md section 2). -/
def Obligations.RepeatedTicksReachZero : Prop :=
  ∀ (k : Nat) (s : State), ((State.timerTick^[k]) s).delay.toNat = s.delay.toNat - k ∧
    ((State.timerTick^[k]) s).sound.toNat = s.sound.toNat - k

/-- External mode: a completed step does not tick, and a `tick_req` of an unfaulted machine is one tick as a
transition of its own (60_exceptions.md section 3; the parameter is the spec's decision D4, log 7). In PerStep
mode a `tick_req` does nothing: this model's reading, log 21. -/
def Obligations.ExternalTicks : Prop :=
  (∀ s t : State, s.params.timerTickSource = .external → s.fault = none → step s = .next t → t.fault = none →
    ∃ w i u, s.fetch = .ok w ∧ decodeWord w = .ok i ∧ exec i (s.begin w) = .next u ∧ t = u) ∧
  (∀ s : State, s.fault = none → s.params.timerTickSource = .external → (s.serve .tick).2 = s.timerTick) ∧
  (∀ s : State, s.params.timerTickSource = .perStep → (s.serve .tick).2 = s)

/-! ### Rules of the whole machine -/

/-- No step alters a byte of the font region, and in every state of the invariant it holds FONT (20_memory.md
section 1; that a write there faults is the spec's decision D8, log 12). -/
def Obligations.FontRegionIsNeverAltered : Prop :=
  (∀ s t : State, step s = .next t → ∀ a, a < 0x50 → t.byteAt a = s.byteAt a) ∧
  (∀ s : State, s.Inv → ∀ a, a < 0x50 → s.params.font[a]? = some (s.byteAt a))

/-- The access matrix's writes: which instructions can change the display, the stack, `index`, memory, the timers
and the random port, and that none changes the keypad, the latch, the ports or the parameters (10_state.md section
5, derived there; that 00EE leaves the popped entry in place, so that the stack array does not change, is the spec's
decision D27, 10_state.md section 2, log 20; the random port is log 4). -/
def Obligations.AccessMatrixWrites : Prop :=
  ∀ (i : Instr) (s t : State), exec i s = .next t →
    (t.display ≠ s.display → i = .cls ∨ ∃ x y n, i = .drw x y n) ∧
    (t.stack ≠ s.stack → ∃ nnn, i = .call nnn) ∧
    (t.sp ≠ s.sp → i = .ret ∨ ∃ nnn, i = .call nnn) ∧
    (t.index ≠ s.index → (∃ nnn, i = .ldIndex nnn) ∨ (∃ x, i = .addIndex x ∨ i = .ldGlyph x) ∨
      (s.cfgIn.indexIncrementQuirk = true ∧ ∃ x, i = .storeRegs x ∨ i = .loadRegs x)) ∧
    ((∃ a, t.byteAt a ≠ s.byteAt a) → ∃ x, i = .storeBcd x ∨ i = .storeRegs x) ∧
    (t.delay ≠ s.delay → ∃ x, i = .ldDelay x) ∧
    (t.sound ≠ s.sound → ∃ x, i = .ldSound x) ∧
    (t.randIn ≠ s.randIn ∨ t.draws ≠ s.draws → ∃ x nn, i = .rnd x nn) ∧
    t.keypad = s.keypad ∧ t.opcode = s.opcode ∧ t.keypadIn = s.keypadIn ∧ t.cfgIn = s.cfgIn ∧ t.params = s.params

/-- No instruction writes a register it does not name as destination, but VF where it is the instruction's flag
(10_state.md section 1). -/
def Obligations.RegistersWrittenOnlyAsNamed : Prop :=
  ∀ (i : Instr) (s t : State) (r : RegIdx), exec i s = .next t → r ∉ i.dests →
    (r = vfIdx → i.writesFlag = false) → t.getV r = s.getV r

/-- No instruction reads `sound` or the latch of an earlier step: a step from a state with other values there ends
in the same state but for them (10_state.md sections 3 and 4). -/
def Obligations.SoundAndLatchAreNeverRead : Prop :=
  ∀ (s t : State) (b : Byte) (w : Word), step s = .next t →
    ∃ t', step { s with sound := b, opcode := w } = .next t' ∧ { t' with sound := t.sound, opcode := t.opcode } = t

/-- The stack entries at and above `sp` affect nothing: two states that differ only there step to two states that
differ only there (10_state.md sections 2 and 5; the spec's decision D27, log 20). -/
def Obligations.StaleStackEntriesAffectNothing : Prop :=
  ∀ s s' t : State, SameButStale s s' → step s = .next t → ∃ t', step s' = .next t' ∧ SameButStale t t'

/-! ### The invariant -/

/-- The reset state meets the invariant (its values of 10_state.md section 6). -/
def Obligations.ResetMeetsTheInvariant : Prop := State.reset.Inv

/-- Every step keeps the invariant: memory canonical and the font region unlisted, `pc` at most 0x10FE, every stack
entry at most 0x1000, and a fault record that names `pc` (10_state.md section 2, derived there; 20_memory.md
section 1; D2, D3, D7, D8, logs 9, 11, 12). -/
def Obligations.StepKeepsTheInvariant : Prop := ∀ s t : State, s.Inv → step s = .next t → t.Inv

/-- Every sequence of the host's requests keeps the invariant (70_reset_and_hazards.md section 4; the ports are the
spec's decisions D1, D19, D25, logs 18 and 20). -/
def Obligations.EveryRunKeepsTheInvariant : Prop :=
  ∀ (rs : List Request) (s : State), s.Inv → (s.serveAll rs).Inv

/-- No request changes a parameter (10_state.md section 5). -/
def Obligations.ParametersAreFixed : Prop := ∀ (rs : List Request) (s : State), (s.serveAll rs).params = s.params

/-! ### Reset, load and the end of a run -/

/-- `Initialize` gives the reset values of 10_state.md section 6, whatever the state before, and keeps `cfg_in`
and the parameters. What a step samples of the keypad is all up too, as long as the host has not written `keypad_in`
(log 27). State.reset is such a state (70_reset_and_hazards.md section 1; the fault record is the spec's decision D3,
log 9). -/
def Obligations.InitializeGivesTheResetState : Prop :=
  (∀ s : State,
    (∀ a, s.initialize.byteAt a = s.params.font[a]?.getD 0) ∧
    (∀ p, Display.cell s.initialize.display p = false) ∧
    (∀ i : RegIdx, s.initialize.getV i = 0) ∧ (∀ i, i < 16 → s.initialize.stack[i]? = some 0) ∧
    (∀ k, s.initialize.keyDown k = false) ∧
    s.initialize.index = 0 ∧ s.initialize.pc = 0x200 ∧ s.initialize.sp.val = 0 ∧ s.initialize.delay = 0 ∧
    s.initialize.sound = 0 ∧ s.initialize.opcode = 0 ∧ s.initialize.fault = none ∧
    (∀ w k, (s.initialize.begin w).keyDown k = false) ∧ s.initialize.cfgIn = s.cfgIn ∧ s.initialize.params = s.params) ∧
  State.reset.initialize = State.reset

/-- `load_program` of at most 3584 bytes stores them from 0x200 up and changes no other byte and nothing else, in
any state (70_reset_and_hazards.md section 1; that any state will do is the spec's decision D25, log 20). -/
def Obligations.LoadProgramCopiesTheBytes : Prop :=
  ∀ (s : State) (bs : List Byte), Memory.wf s.params.font s.mem → bs.length ≤ 3584 →
    ∃ t, s.loadProgram (.bytes bs) = (.ok, t) ∧
      (∀ i, i < bs.length → bs[i]? = some (t.byteAt (0x200 + i))) ∧
      SameMemoryOutside s t 0x200 bs.length ∧ t = { s with mem := t.mem }

/-- R247: a load reports Ok, ProgramTooLarge or IoError; on failure nothing changes; it never writes the fault
record. -/
def Obligations.LoadResults : Prop :=
  ∀ (s : State) (bs : List Byte),
    s.loadProgram .readError = (.ioError, s) ∧
    (4096 - 512 < bs.length → s.loadProgram (.bytes bs) = (.programTooLarge, s)) ∧
    (bs.length ≤ 4096 - 512 → (s.loadProgram (.bytes bs)).1 = .ok) ∧
    (s.loadProgram (.bytes bs)).2.fault = s.fault ∧
    (∀ src, (s.serve (.load src)).1 = .loaded (s.loadProgram src).1)

/-- From a parked state every step leaves everything but the timers, the sampled keypad and the latch unchanged, so
it stays parked (70_reset_and_hazards.md section 4, derived there; the end conditions are the spec's decision D22,
log 20). -/
def Obligations.ParkedStaysParked : Prop :=
  ∀ s : State, s.fault = none → s.parked → ∃ t, step s = .next t ∧ t.parked ∧ SameMemory s t ∧
    t = { s with delay := t.delay, sound := t.sound, keypad := s.keypadIn, opcode := s.wordAt s.pc.toNat }

/-- The word placed for the next fetch is the word the next step fetches (this model's own operation, logs 22
and 23). -/
def Obligations.PlacedWordIsFetched : Prop :=
  ∀ (s : State) (w : Nat), Memory.wf s.params.font s.mem → w < 65536 →
    (s.withFetchWord 16 w).fault = none ∧ (s.withFetchWord 16 w).fetch = .ok (BitVec.ofNat 16 w)

/-- After `initialize` every key is up until the host next writes `keypad_in`: no other request, in any number and
order, puts a key down, nor lets a step sample one that is down (10_state.md section 6; how the port holds this is
log 27). -/
def Obligations.KeypadIsUpUntilTheHostWritesIt : Prop :=
  ∀ (s : State) (rs : List Request), (∀ k, Request.setKeypad k ∉ rs) →
    ∀ k, (s.initialize.serveAll rs).keyDown k = false ∧
      ∀ w, ((s.initialize.serveAll rs).begin w).keyDown k = false
end

