-- ==== Sys2Proof/Laws/Decode.lean ====
section
/-! SUPPORT. Small laws of fields, packing and masks, so that a proof about words works on fields. -/

namespace Sys2Proof

-- One theorem at a time: each waiting one holds a thread of its own.
set_option Elab.async false

/-! ### Fields as numbers (30_encoding.md R81) -/

theorem toNat_fieldF (w : Word) : (fieldF w).toNat = w.toNat / 4096 := by
  have := w.isLt
  simp only [fieldF, BitVec.extractLsb'_toNat, Nat.shiftRight_eq_div_pow]
  omega

theorem val_fieldX (w : Word) : (fieldX w).val = w.toNat / 256 % 16 := by
  have h : (fieldX w).val = (w.extractLsb' 8 4).toNat := rfl
  rw [h, BitVec.extractLsb'_toNat, Nat.shiftRight_eq_div_pow]

theorem val_fieldY (w : Word) : (fieldY w).val = w.toNat / 16 % 16 := by
  have h : (fieldY w).val = (w.extractLsb' 4 4).toNat := rfl
  rw [h, BitVec.extractLsb'_toNat, Nat.shiftRight_eq_div_pow]

theorem toNat_fieldN (w : Word) : (fieldN w).toNat = w.toNat % 16 := by
  simp [fieldN, BitVec.extractLsb'_toNat]

theorem toNat_fieldNN (w : Word) : (fieldNN w).toNat = w.toNat % 256 := by
  simp [fieldNN, BitVec.extractLsb'_toNat]

theorem toNat_fieldNNN (w : Word) : (fieldNNN w).toNat = w.toNat % 4096 := by
  simp [fieldNNN, BitVec.extractLsb'_toNat]

theorem toNat_highByte (w : Word) : (highByte w).toNat = w.toNat / 256 := by
  have := w.isLt
  simp only [highByte, BitVec.extractLsb'_toNat, Nat.shiftRight_eq_div_pow]
  omega

theorem toNat_lowByte (w : Word) : (lowByte w).toNat = w.toNat % 256 := by
  simp [lowByte, BitVec.extractLsb'_toNat]

/-! ### Packed words as numbers -/

theorem toNat_packNNN (f : BitVec 4) (nnn : BitVec 12) :
    (packNNN f nnn).toNat = f.toNat * 4096 + nnn.toNat := by
  have h : (packNNN f nnn).toNat = f.toNat <<< 12 ||| nnn.toNat := BitVec.toNat_append f nnn
  rw [h, ← Nat.shiftLeft_add_eq_or_of_lt nnn.isLt, Nat.shiftLeft_eq]

theorem toNat_packXNN (f : BitVec 4) (x : RegIdx) (nn : Byte) :
    (packXNN f x nn).toNat = f.toNat * 4096 + x.val * 256 + nn.toNat := by
  have h : (packXNN f x nn).toNat = (f.toNat <<< 4 ||| x.val) <<< 8 ||| nn.toNat :=
    (BitVec.toNat_append (f ++ BitVec.ofFin (w := 4) x) nn).trans
      (congrArg (fun z => z <<< 8 ||| nn.toNat) (BitVec.toNat_append f (BitVec.ofFin (w := 4) x)))
  rw [h, ← Nat.shiftLeft_add_eq_or_of_lt nn.isLt, ← Nat.shiftLeft_add_eq_or_of_lt x.isLt, Nat.shiftLeft_eq,
    Nat.shiftLeft_eq]
  omega

theorem toNat_packXYN (f : BitVec 4) (x y : RegIdx) (n : BitVec 4) :
    (packXYN f x y n).toNat = f.toNat * 4096 + x.val * 256 + y.val * 16 + n.toNat := by
  have h : (packXYN f x y n).toNat = ((f.toNat <<< 4 ||| x.val) <<< 4 ||| y.val) <<< 4 ||| n.toNat :=
    (BitVec.toNat_append (f ++ BitVec.ofFin (w := 4) x ++ BitVec.ofFin (w := 4) y) n).trans
      (congrArg (fun z => z <<< 4 ||| n.toNat)
        ((BitVec.toNat_append (f ++ BitVec.ofFin (w := 4) x) (BitVec.ofFin (w := 4) y)).trans
          (congrArg (fun z => z <<< 4 ||| y.val) (BitVec.toNat_append f (BitVec.ofFin (w := 4) x)))))
  rw [h, ← Nat.shiftLeft_add_eq_or_of_lt n.isLt, ← Nat.shiftLeft_add_eq_or_of_lt y.isLt,
    ← Nat.shiftLeft_add_eq_or_of_lt x.isLt, Nat.shiftLeft_eq, Nat.shiftLeft_eq, Nat.shiftLeft_eq]
  omega

theorem toNat_wordOfBytes (hi lo : Byte) : (wordOfBytes hi lo).toNat = hi.toNat * 256 + lo.toNat := by
  have h : (wordOfBytes hi lo).toNat = hi.toNat <<< 8 ||| lo.toNat := BitVec.toNat_append hi lo
  rw [h, ← Nat.shiftLeft_add_eq_or_of_lt lo.isLt, Nat.shiftLeft_eq]

/-- A word is its two bytes, high byte first. -/
@[simp] theorem wordOfBytes_bytes (w : Word) : wordOfBytes (highByte w) (lowByte w) = w := by
  apply BitVec.eq_of_toNat_eq
  rw [toNat_wordOfBytes, toNat_highByte, toNat_lowByte]
  omega

@[simp] theorem highByte_wordOfBytes (hi lo : Byte) : highByte (wordOfBytes hi lo) = hi := by
  apply BitVec.eq_of_toNat_eq
  have := lo.isLt
  rw [toNat_highByte, toNat_wordOfBytes]
  omega

@[simp] theorem lowByte_wordOfBytes (hi lo : Byte) : lowByte (wordOfBytes hi lo) = lo := by
  apply BitVec.eq_of_toNat_eq
  have := lo.isLt
  rw [toNat_lowByte, toNat_wordOfBytes]
  omega

/-! ### Fields of packed words -/

@[simp] theorem fieldF_packNNN (f : BitVec 4) (nnn : BitVec 12) : fieldF (packNNN f nnn) = f := by
  apply BitVec.eq_of_toNat_eq; rw [toNat_fieldF, toNat_packNNN]; omega

@[simp] theorem fieldNNN_packNNN (f : BitVec 4) (nnn : BitVec 12) : fieldNNN (packNNN f nnn) = nnn := by
  apply BitVec.eq_of_toNat_eq; rw [toNat_fieldNNN, toNat_packNNN]; omega

@[simp] theorem fieldF_packXNN (f : BitVec 4) (x : RegIdx) (nn : Byte) : fieldF (packXNN f x nn) = f := by
  apply BitVec.eq_of_toNat_eq; rw [toNat_fieldF, toNat_packXNN]; omega

@[simp] theorem fieldX_packXNN (f : BitVec 4) (x : RegIdx) (nn : Byte) : fieldX (packXNN f x nn) = x := by
  apply Fin.ext; rw [val_fieldX, toNat_packXNN]; omega

@[simp] theorem fieldNN_packXNN (f : BitVec 4) (x : RegIdx) (nn : Byte) : fieldNN (packXNN f x nn) = nn := by
  apply BitVec.eq_of_toNat_eq; rw [toNat_fieldNN, toNat_packXNN]; omega

@[simp] theorem fieldF_packXYN (f : BitVec 4) (x y : RegIdx) (n : BitVec 4) : fieldF (packXYN f x y n) = f := by
  apply BitVec.eq_of_toNat_eq; rw [toNat_fieldF, toNat_packXYN]; omega

@[simp] theorem fieldX_packXYN (f : BitVec 4) (x y : RegIdx) (n : BitVec 4) : fieldX (packXYN f x y n) = x := by
  apply Fin.ext; rw [val_fieldX, toNat_packXYN]; omega

@[simp] theorem fieldY_packXYN (f : BitVec 4) (x y : RegIdx) (n : BitVec 4) : fieldY (packXYN f x y n) = y := by
  apply Fin.ext; rw [val_fieldY, toNat_packXYN]; omega

@[simp] theorem fieldN_packXYN (f : BitVec 4) (x y : RegIdx) (n : BitVec 4) : fieldN (packXYN f x y n) = n := by
  apply BitVec.eq_of_toNat_eq; rw [toNat_fieldN, toNat_packXYN]; omega

/-! ### Words from their fields -/

/-- A word is its family and NNN. -/
theorem packNNN_fields (w : Word) : packNNN (fieldF w) (fieldNNN w) = w := by
  apply BitVec.eq_of_toNat_eq; rw [toNat_packNNN, toNat_fieldF, toNat_fieldNNN]; omega

/-- A word is its family, X and NN. -/
theorem packXNN_fields (w : Word) : packXNN (fieldF w) (fieldX w) (fieldNN w) = w := by
  apply BitVec.eq_of_toNat_eq; rw [toNat_packXNN, toNat_fieldF, val_fieldX, toNat_fieldNN]; omega

/-- A word is its family, X, Y and N. -/
theorem packXYN_fields (w : Word) : packXYN (fieldF w) (fieldX w) (fieldY w) (fieldN w) = w := by
  apply BitVec.eq_of_toNat_eq
  rw [toNat_packXYN, toNat_fieldF, val_fieldX, val_fieldY, toNat_fieldN]; omega

/-! ### Masks -/

theorem fieldF_and (w m : Word) : fieldF (w &&& m) = fieldF w &&& fieldF m := BitVec.extractLsb'_and ..

theorem fieldN_and (w m : Word) : fieldN (w &&& m) = fieldN w &&& fieldN m := BitVec.extractLsb'_and ..

theorem fieldNN_and (w m : Word) : fieldNN (w &&& m) = fieldNN w &&& fieldNN m := BitVec.extractLsb'_and ..

/-- A mask of the family alone. -/
theorem family_of_mask {w p : Word} (h : w &&& 0xF000 = p) : fieldF w = fieldF p := by
  have hm : fieldF 0xF000 = BitVec.allOnes 4 := by decide
  rw [← h, fieldF_and, hm, BitVec.and_allOnes]

/-- A mask of the family and the bottom nibble. -/
theorem nibbles_of_mask {w p : Word} (h : w &&& 0xF00F = p) : fieldF w = fieldF p ∧ fieldN w = fieldN p := by
  have hm : fieldF 0xF00F = BitVec.allOnes 4 := by decide
  have hn : fieldN 0xF00F = BitVec.allOnes 4 := by decide
  rw [← h, fieldF_and, fieldN_and, hm, hn, BitVec.and_allOnes, BitVec.and_allOnes]
  exact ⟨rfl, rfl⟩

/-- A mask of the family and the bottom byte. -/
theorem byte_of_mask {w p : Word} (h : w &&& 0xF0FF = p) : fieldF w = fieldF p ∧ fieldNN w = fieldNN p := by
  have hm : fieldF 0xF0FF = BitVec.allOnes 4 := by decide
  have hn : fieldNN 0xF0FF = BitVec.allOnes 8 := by decide
  rw [← h, fieldF_and, fieldNN_and, hm, hn, BitVec.and_allOnes, BitVec.and_allOnes]
  exact ⟨rfl, rfl⟩

/-- Every instruction is well formed: its operands' types are its fields' widths (30_encoding.md R88). -/
theorem Instr.wellFormed_all (i : Instr) : i.wellFormed = true := by cases i <;> rfl

end Sys2Proof
end

