-- ==== Sys2Proof/Laws/State.lean ====
section
/-! SUPPORT. One lemma per field per update of State, so that no proof unfolds an update. -/

namespace Sys2Proof.Machine

-- One theorem at a time: each waiting one holds a thread of its own.
set_option Elab.async false

variable (s : State)

/-! ### `State.setV` -/

@[simp] theorem State.setV_v (i : RegIdx) (b : Byte) : (s.setV i b).v = s.v.set i.val b := rfl
@[simp] theorem State.setV_index (i : RegIdx) (b : Byte) : (s.setV i b).index = s.index := rfl
@[simp] theorem State.setV_pc (i : RegIdx) (b : Byte) : (s.setV i b).pc = s.pc := rfl
@[simp] theorem State.setV_stack (i : RegIdx) (b : Byte) : (s.setV i b).stack = s.stack := rfl
@[simp] theorem State.setV_sp (i : RegIdx) (b : Byte) : (s.setV i b).sp = s.sp := rfl
@[simp] theorem State.setV_delay (i : RegIdx) (b : Byte) : (s.setV i b).delay = s.delay := rfl
@[simp] theorem State.setV_sound (i : RegIdx) (b : Byte) : (s.setV i b).sound = s.sound := rfl
@[simp] theorem State.setV_keypad (i : RegIdx) (b : Byte) : (s.setV i b).keypad = s.keypad := rfl
@[simp] theorem State.setV_display (i : RegIdx) (b : Byte) : (s.setV i b).display = s.display := rfl
@[simp] theorem State.setV_mem (i : RegIdx) (b : Byte) : (s.setV i b).mem = s.mem := rfl
@[simp] theorem State.setV_opcode (i : RegIdx) (b : Byte) : (s.setV i b).opcode = s.opcode := rfl
@[simp] theorem State.setV_fault (i : RegIdx) (b : Byte) : (s.setV i b).fault = s.fault := rfl
@[simp] theorem State.setV_keypadIn (i : RegIdx) (b : Byte) : (s.setV i b).keypadIn = s.keypadIn := rfl
@[simp] theorem State.setV_cfgIn (i : RegIdx) (b : Byte) : (s.setV i b).cfgIn = s.cfgIn := rfl
@[simp] theorem State.setV_randIn (i : RegIdx) (b : Byte) : (s.setV i b).randIn = s.randIn := rfl
@[simp] theorem State.setV_draws (i : RegIdx) (b : Byte) : (s.setV i b).draws = s.draws := rfl
@[simp] theorem State.setV_params (i : RegIdx) (b : Byte) : (s.setV i b).params = s.params := rfl

/-! ### `State.setIndex` -/

@[simp] theorem State.setIndex_v (w : Word) : (s.setIndex w).v = s.v := rfl
@[simp] theorem State.setIndex_index (w : Word) : (s.setIndex w).index = w := rfl
@[simp] theorem State.setIndex_pc (w : Word) : (s.setIndex w).pc = s.pc := rfl
@[simp] theorem State.setIndex_stack (w : Word) : (s.setIndex w).stack = s.stack := rfl
@[simp] theorem State.setIndex_sp (w : Word) : (s.setIndex w).sp = s.sp := rfl
@[simp] theorem State.setIndex_delay (w : Word) : (s.setIndex w).delay = s.delay := rfl
@[simp] theorem State.setIndex_sound (w : Word) : (s.setIndex w).sound = s.sound := rfl
@[simp] theorem State.setIndex_keypad (w : Word) : (s.setIndex w).keypad = s.keypad := rfl
@[simp] theorem State.setIndex_display (w : Word) : (s.setIndex w).display = s.display := rfl
@[simp] theorem State.setIndex_mem (w : Word) : (s.setIndex w).mem = s.mem := rfl
@[simp] theorem State.setIndex_opcode (w : Word) : (s.setIndex w).opcode = s.opcode := rfl
@[simp] theorem State.setIndex_fault (w : Word) : (s.setIndex w).fault = s.fault := rfl
@[simp] theorem State.setIndex_keypadIn (w : Word) : (s.setIndex w).keypadIn = s.keypadIn := rfl
@[simp] theorem State.setIndex_cfgIn (w : Word) : (s.setIndex w).cfgIn = s.cfgIn := rfl
@[simp] theorem State.setIndex_randIn (w : Word) : (s.setIndex w).randIn = s.randIn := rfl
@[simp] theorem State.setIndex_draws (w : Word) : (s.setIndex w).draws = s.draws := rfl
@[simp] theorem State.setIndex_params (w : Word) : (s.setIndex w).params = s.params := rfl

/-! ### `State.setPc` -/

@[simp] theorem State.setPc_v (w : Word) : (s.setPc w).v = s.v := rfl
@[simp] theorem State.setPc_index (w : Word) : (s.setPc w).index = s.index := rfl
@[simp] theorem State.setPc_pc (w : Word) : (s.setPc w).pc = w := rfl
@[simp] theorem State.setPc_stack (w : Word) : (s.setPc w).stack = s.stack := rfl
@[simp] theorem State.setPc_sp (w : Word) : (s.setPc w).sp = s.sp := rfl
@[simp] theorem State.setPc_delay (w : Word) : (s.setPc w).delay = s.delay := rfl
@[simp] theorem State.setPc_sound (w : Word) : (s.setPc w).sound = s.sound := rfl
@[simp] theorem State.setPc_keypad (w : Word) : (s.setPc w).keypad = s.keypad := rfl
@[simp] theorem State.setPc_display (w : Word) : (s.setPc w).display = s.display := rfl
@[simp] theorem State.setPc_mem (w : Word) : (s.setPc w).mem = s.mem := rfl
@[simp] theorem State.setPc_opcode (w : Word) : (s.setPc w).opcode = s.opcode := rfl
@[simp] theorem State.setPc_fault (w : Word) : (s.setPc w).fault = s.fault := rfl
@[simp] theorem State.setPc_keypadIn (w : Word) : (s.setPc w).keypadIn = s.keypadIn := rfl
@[simp] theorem State.setPc_cfgIn (w : Word) : (s.setPc w).cfgIn = s.cfgIn := rfl
@[simp] theorem State.setPc_randIn (w : Word) : (s.setPc w).randIn = s.randIn := rfl
@[simp] theorem State.setPc_draws (w : Word) : (s.setPc w).draws = s.draws := rfl
@[simp] theorem State.setPc_params (w : Word) : (s.setPc w).params = s.params := rfl

/-! ### `State.setDelay` -/

@[simp] theorem State.setDelay_v (b : Byte) : (s.setDelay b).v = s.v := rfl
@[simp] theorem State.setDelay_index (b : Byte) : (s.setDelay b).index = s.index := rfl
@[simp] theorem State.setDelay_pc (b : Byte) : (s.setDelay b).pc = s.pc := rfl
@[simp] theorem State.setDelay_stack (b : Byte) : (s.setDelay b).stack = s.stack := rfl
@[simp] theorem State.setDelay_sp (b : Byte) : (s.setDelay b).sp = s.sp := rfl
@[simp] theorem State.setDelay_delay (b : Byte) : (s.setDelay b).delay = b := rfl
@[simp] theorem State.setDelay_sound (b : Byte) : (s.setDelay b).sound = s.sound := rfl
@[simp] theorem State.setDelay_keypad (b : Byte) : (s.setDelay b).keypad = s.keypad := rfl
@[simp] theorem State.setDelay_display (b : Byte) : (s.setDelay b).display = s.display := rfl
@[simp] theorem State.setDelay_mem (b : Byte) : (s.setDelay b).mem = s.mem := rfl
@[simp] theorem State.setDelay_opcode (b : Byte) : (s.setDelay b).opcode = s.opcode := rfl
@[simp] theorem State.setDelay_fault (b : Byte) : (s.setDelay b).fault = s.fault := rfl
@[simp] theorem State.setDelay_keypadIn (b : Byte) : (s.setDelay b).keypadIn = s.keypadIn := rfl
@[simp] theorem State.setDelay_cfgIn (b : Byte) : (s.setDelay b).cfgIn = s.cfgIn := rfl
@[simp] theorem State.setDelay_randIn (b : Byte) : (s.setDelay b).randIn = s.randIn := rfl
@[simp] theorem State.setDelay_draws (b : Byte) : (s.setDelay b).draws = s.draws := rfl
@[simp] theorem State.setDelay_params (b : Byte) : (s.setDelay b).params = s.params := rfl

/-! ### `State.setSound` -/

@[simp] theorem State.setSound_v (b : Byte) : (s.setSound b).v = s.v := rfl
@[simp] theorem State.setSound_index (b : Byte) : (s.setSound b).index = s.index := rfl
@[simp] theorem State.setSound_pc (b : Byte) : (s.setSound b).pc = s.pc := rfl
@[simp] theorem State.setSound_stack (b : Byte) : (s.setSound b).stack = s.stack := rfl
@[simp] theorem State.setSound_sp (b : Byte) : (s.setSound b).sp = s.sp := rfl
@[simp] theorem State.setSound_delay (b : Byte) : (s.setSound b).delay = s.delay := rfl
@[simp] theorem State.setSound_sound (b : Byte) : (s.setSound b).sound = b := rfl
@[simp] theorem State.setSound_keypad (b : Byte) : (s.setSound b).keypad = s.keypad := rfl
@[simp] theorem State.setSound_display (b : Byte) : (s.setSound b).display = s.display := rfl
@[simp] theorem State.setSound_mem (b : Byte) : (s.setSound b).mem = s.mem := rfl
@[simp] theorem State.setSound_opcode (b : Byte) : (s.setSound b).opcode = s.opcode := rfl
@[simp] theorem State.setSound_fault (b : Byte) : (s.setSound b).fault = s.fault := rfl
@[simp] theorem State.setSound_keypadIn (b : Byte) : (s.setSound b).keypadIn = s.keypadIn := rfl
@[simp] theorem State.setSound_cfgIn (b : Byte) : (s.setSound b).cfgIn = s.cfgIn := rfl
@[simp] theorem State.setSound_randIn (b : Byte) : (s.setSound b).randIn = s.randIn := rfl
@[simp] theorem State.setSound_draws (b : Byte) : (s.setSound b).draws = s.draws := rfl
@[simp] theorem State.setSound_params (b : Byte) : (s.setSound b).params = s.params := rfl

/-! ### `State.setDisplay` -/

@[simp] theorem State.setDisplay_v (d : Display) : (s.setDisplay d).v = s.v := rfl
@[simp] theorem State.setDisplay_index (d : Display) : (s.setDisplay d).index = s.index := rfl
@[simp] theorem State.setDisplay_pc (d : Display) : (s.setDisplay d).pc = s.pc := rfl
@[simp] theorem State.setDisplay_stack (d : Display) : (s.setDisplay d).stack = s.stack := rfl
@[simp] theorem State.setDisplay_sp (d : Display) : (s.setDisplay d).sp = s.sp := rfl
@[simp] theorem State.setDisplay_delay (d : Display) : (s.setDisplay d).delay = s.delay := rfl
@[simp] theorem State.setDisplay_sound (d : Display) : (s.setDisplay d).sound = s.sound := rfl
@[simp] theorem State.setDisplay_keypad (d : Display) : (s.setDisplay d).keypad = s.keypad := rfl
@[simp] theorem State.setDisplay_display (d : Display) : (s.setDisplay d).display = d := rfl
@[simp] theorem State.setDisplay_mem (d : Display) : (s.setDisplay d).mem = s.mem := rfl
@[simp] theorem State.setDisplay_opcode (d : Display) : (s.setDisplay d).opcode = s.opcode := rfl
@[simp] theorem State.setDisplay_fault (d : Display) : (s.setDisplay d).fault = s.fault := rfl
@[simp] theorem State.setDisplay_keypadIn (d : Display) : (s.setDisplay d).keypadIn = s.keypadIn := rfl
@[simp] theorem State.setDisplay_cfgIn (d : Display) : (s.setDisplay d).cfgIn = s.cfgIn := rfl
@[simp] theorem State.setDisplay_randIn (d : Display) : (s.setDisplay d).randIn = s.randIn := rfl
@[simp] theorem State.setDisplay_draws (d : Display) : (s.setDisplay d).draws = s.draws := rfl
@[simp] theorem State.setDisplay_params (d : Display) : (s.setDisplay d).params = s.params := rfl

/-! ### `State.nextDraw` -/

@[simp] theorem State.nextDraw_v : s.nextDraw.v = s.v := rfl
@[simp] theorem State.nextDraw_index : s.nextDraw.index = s.index := rfl
@[simp] theorem State.nextDraw_pc : s.nextDraw.pc = s.pc := rfl
@[simp] theorem State.nextDraw_stack : s.nextDraw.stack = s.stack := rfl
@[simp] theorem State.nextDraw_sp : s.nextDraw.sp = s.sp := rfl
@[simp] theorem State.nextDraw_delay : s.nextDraw.delay = s.delay := rfl
@[simp] theorem State.nextDraw_sound : s.nextDraw.sound = s.sound := rfl
@[simp] theorem State.nextDraw_keypad : s.nextDraw.keypad = s.keypad := rfl
@[simp] theorem State.nextDraw_display : s.nextDraw.display = s.display := rfl
@[simp] theorem State.nextDraw_mem : s.nextDraw.mem = s.mem := rfl
@[simp] theorem State.nextDraw_opcode : s.nextDraw.opcode = s.opcode := rfl
@[simp] theorem State.nextDraw_fault : s.nextDraw.fault = s.fault := rfl
@[simp] theorem State.nextDraw_keypadIn : s.nextDraw.keypadIn = s.keypadIn := rfl
@[simp] theorem State.nextDraw_cfgIn : s.nextDraw.cfgIn = s.cfgIn := rfl
@[simp] theorem State.nextDraw_randIn : s.nextDraw.randIn = Config.freeByte (s.draws + 1) := rfl
@[simp] theorem State.nextDraw_draws : s.nextDraw.draws = s.draws + 1 := rfl
@[simp] theorem State.nextDraw_params : s.nextDraw.params = s.params := rfl

/-! ### `State.timerTick` -/

@[simp] theorem State.timerTick_v : s.timerTick.v = s.v := rfl
@[simp] theorem State.timerTick_index : s.timerTick.index = s.index := rfl
@[simp] theorem State.timerTick_pc : s.timerTick.pc = s.pc := rfl
@[simp] theorem State.timerTick_stack : s.timerTick.stack = s.stack := rfl
@[simp] theorem State.timerTick_sp : s.timerTick.sp = s.sp := rfl
@[simp] theorem State.timerTick_delay : s.timerTick.delay = tickDown s.delay := rfl
@[simp] theorem State.timerTick_sound : s.timerTick.sound = tickDown s.sound := rfl
@[simp] theorem State.timerTick_keypad : s.timerTick.keypad = s.keypad := rfl
@[simp] theorem State.timerTick_display : s.timerTick.display = s.display := rfl
@[simp] theorem State.timerTick_mem : s.timerTick.mem = s.mem := rfl
@[simp] theorem State.timerTick_opcode : s.timerTick.opcode = s.opcode := rfl
@[simp] theorem State.timerTick_fault : s.timerTick.fault = s.fault := rfl
@[simp] theorem State.timerTick_keypadIn : s.timerTick.keypadIn = s.keypadIn := rfl
@[simp] theorem State.timerTick_cfgIn : s.timerTick.cfgIn = s.cfgIn := rfl
@[simp] theorem State.timerTick_randIn : s.timerTick.randIn = s.randIn := rfl
@[simp] theorem State.timerTick_draws : s.timerTick.draws = s.draws := rfl
@[simp] theorem State.timerTick_params : s.timerTick.params = s.params := rfl

/-! ### `State.enterFault` -/

@[simp] theorem State.enterFault_v (r : Raised) (w : Option Word) : (s.enterFault r w).v = s.v := rfl
@[simp] theorem State.enterFault_index (r : Raised) (w : Option Word) : (s.enterFault r w).index = s.index := rfl
@[simp] theorem State.enterFault_pc (r : Raised) (w : Option Word) : (s.enterFault r w).pc = s.pc := rfl
@[simp] theorem State.enterFault_stack (r : Raised) (w : Option Word) : (s.enterFault r w).stack = s.stack := rfl
@[simp] theorem State.enterFault_sp (r : Raised) (w : Option Word) : (s.enterFault r w).sp = s.sp := rfl
@[simp] theorem State.enterFault_delay (r : Raised) (w : Option Word) : (s.enterFault r w).delay = s.delay := rfl
@[simp] theorem State.enterFault_sound (r : Raised) (w : Option Word) : (s.enterFault r w).sound = s.sound := rfl
@[simp] theorem State.enterFault_keypad (r : Raised) (w : Option Word) : (s.enterFault r w).keypad = s.keypad := rfl
@[simp] theorem State.enterFault_display (r : Raised) (w : Option Word) : (s.enterFault r w).display = s.display := rfl
@[simp] theorem State.enterFault_mem (r : Raised) (w : Option Word) : (s.enterFault r w).mem = s.mem := rfl
@[simp] theorem State.enterFault_opcode (r : Raised) (w : Option Word) : (s.enterFault r w).opcode = s.opcode := rfl
@[simp] theorem State.enterFault_fault (r : Raised) (w : Option Word) : (s.enterFault r w).fault = some ⟨r.kind, s.pc, w, r.detail⟩ := rfl
@[simp] theorem State.enterFault_keypadIn (r : Raised) (w : Option Word) : (s.enterFault r w).keypadIn = s.keypadIn := rfl
@[simp] theorem State.enterFault_cfgIn (r : Raised) (w : Option Word) : (s.enterFault r w).cfgIn = s.cfgIn := rfl
@[simp] theorem State.enterFault_randIn (r : Raised) (w : Option Word) : (s.enterFault r w).randIn = s.randIn := rfl
@[simp] theorem State.enterFault_draws (r : Raised) (w : Option Word) : (s.enterFault r w).draws = s.draws := rfl
@[simp] theorem State.enterFault_params (r : Raised) (w : Option Word) : (s.enterFault r w).params = s.params := rfl

/-! ### `State.undoFetch` -/

@[simp] theorem State.undoFetch_v : s.undoFetch.v = s.v := rfl
@[simp] theorem State.undoFetch_index : s.undoFetch.index = s.index := rfl
@[simp] theorem State.undoFetch_pc : s.undoFetch.pc = s.pc - 2 := rfl
@[simp] theorem State.undoFetch_stack : s.undoFetch.stack = s.stack := rfl
@[simp] theorem State.undoFetch_sp : s.undoFetch.sp = s.sp := rfl
@[simp] theorem State.undoFetch_delay : s.undoFetch.delay = s.delay := rfl
@[simp] theorem State.undoFetch_sound : s.undoFetch.sound = s.sound := rfl
@[simp] theorem State.undoFetch_keypad : s.undoFetch.keypad = s.keypad := rfl
@[simp] theorem State.undoFetch_display : s.undoFetch.display = s.display := rfl
@[simp] theorem State.undoFetch_mem : s.undoFetch.mem = s.mem := rfl
@[simp] theorem State.undoFetch_opcode : s.undoFetch.opcode = s.opcode := rfl
@[simp] theorem State.undoFetch_fault : s.undoFetch.fault = s.fault := rfl
@[simp] theorem State.undoFetch_keypadIn : s.undoFetch.keypadIn = s.keypadIn := rfl
@[simp] theorem State.undoFetch_cfgIn : s.undoFetch.cfgIn = s.cfgIn := rfl
@[simp] theorem State.undoFetch_randIn : s.undoFetch.randIn = s.randIn := rfl
@[simp] theorem State.undoFetch_draws : s.undoFetch.draws = s.draws := rfl
@[simp] theorem State.undoFetch_params : s.undoFetch.params = s.params := rfl

/-! ### `State.begin` -/

@[simp] theorem State.begin_v (w : Word) : (s.begin w).v = s.v := rfl
@[simp] theorem State.begin_index (w : Word) : (s.begin w).index = s.index := rfl
@[simp] theorem State.begin_pc (w : Word) : (s.begin w).pc = s.pc + 2 := rfl
@[simp] theorem State.begin_stack (w : Word) : (s.begin w).stack = s.stack := rfl
@[simp] theorem State.begin_sp (w : Word) : (s.begin w).sp = s.sp := rfl
@[simp] theorem State.begin_delay (w : Word) : (s.begin w).delay = s.delay := rfl
@[simp] theorem State.begin_sound (w : Word) : (s.begin w).sound = s.sound := rfl
@[simp] theorem State.begin_keypad (w : Word) : (s.begin w).keypad = s.keypadIn := rfl
@[simp] theorem State.begin_display (w : Word) : (s.begin w).display = s.display := rfl
@[simp] theorem State.begin_mem (w : Word) : (s.begin w).mem = s.mem := rfl
@[simp] theorem State.begin_opcode (w : Word) : (s.begin w).opcode = w := rfl
@[simp] theorem State.begin_fault (w : Word) : (s.begin w).fault = s.fault := rfl
@[simp] theorem State.begin_keypadIn (w : Word) : (s.begin w).keypadIn = s.keypadIn := rfl
@[simp] theorem State.begin_cfgIn (w : Word) : (s.begin w).cfgIn = s.cfgIn := rfl
@[simp] theorem State.begin_randIn (w : Word) : (s.begin w).randIn = s.randIn := rfl
@[simp] theorem State.begin_draws (w : Word) : (s.begin w).draws = s.draws := rfl
@[simp] theorem State.begin_params (w : Word) : (s.begin w).params = s.params := rfl

/-! ### `State.setFlag` -/

@[simp] theorem State.setFlag_v (c : Bool) : (s.setFlag c).v = s.v.set 15 (flagByte c) := rfl
@[simp] theorem State.setFlag_index (c : Bool) : (s.setFlag c).index = s.index := rfl
@[simp] theorem State.setFlag_pc (c : Bool) : (s.setFlag c).pc = s.pc := rfl
@[simp] theorem State.setFlag_stack (c : Bool) : (s.setFlag c).stack = s.stack := rfl
@[simp] theorem State.setFlag_sp (c : Bool) : (s.setFlag c).sp = s.sp := rfl
@[simp] theorem State.setFlag_delay (c : Bool) : (s.setFlag c).delay = s.delay := rfl
@[simp] theorem State.setFlag_sound (c : Bool) : (s.setFlag c).sound = s.sound := rfl
@[simp] theorem State.setFlag_keypad (c : Bool) : (s.setFlag c).keypad = s.keypad := rfl
@[simp] theorem State.setFlag_display (c : Bool) : (s.setFlag c).display = s.display := rfl
@[simp] theorem State.setFlag_mem (c : Bool) : (s.setFlag c).mem = s.mem := rfl
@[simp] theorem State.setFlag_opcode (c : Bool) : (s.setFlag c).opcode = s.opcode := rfl
@[simp] theorem State.setFlag_fault (c : Bool) : (s.setFlag c).fault = s.fault := rfl
@[simp] theorem State.setFlag_keypadIn (c : Bool) : (s.setFlag c).keypadIn = s.keypadIn := rfl
@[simp] theorem State.setFlag_cfgIn (c : Bool) : (s.setFlag c).cfgIn = s.cfgIn := rfl
@[simp] theorem State.setFlag_randIn (c : Bool) : (s.setFlag c).randIn = s.randIn := rfl
@[simp] theorem State.setFlag_draws (c : Bool) : (s.setFlag c).draws = s.draws := rfl
@[simp] theorem State.setFlag_params (c : Bool) : (s.setFlag c).params = s.params := rfl

/-! ### Updates that depend on a condition -/

@[simp] theorem State.skipIf_v (c : Bool) : (s.skipIf c).v = s.v := by
  unfold State.skipIf; split <;> rfl
@[simp] theorem State.skipIf_index (c : Bool) : (s.skipIf c).index = s.index := by
  unfold State.skipIf; split <;> rfl
@[simp] theorem State.skipIf_stack (c : Bool) : (s.skipIf c).stack = s.stack := by
  unfold State.skipIf; split <;> rfl
@[simp] theorem State.skipIf_sp (c : Bool) : (s.skipIf c).sp = s.sp := by
  unfold State.skipIf; split <;> rfl
@[simp] theorem State.skipIf_delay (c : Bool) : (s.skipIf c).delay = s.delay := by
  unfold State.skipIf; split <;> rfl
@[simp] theorem State.skipIf_sound (c : Bool) : (s.skipIf c).sound = s.sound := by
  unfold State.skipIf; split <;> rfl
@[simp] theorem State.skipIf_keypad (c : Bool) : (s.skipIf c).keypad = s.keypad := by
  unfold State.skipIf; split <;> rfl
@[simp] theorem State.skipIf_display (c : Bool) : (s.skipIf c).display = s.display := by
  unfold State.skipIf; split <;> rfl
@[simp] theorem State.skipIf_mem (c : Bool) : (s.skipIf c).mem = s.mem := by
  unfold State.skipIf; split <;> rfl
@[simp] theorem State.skipIf_opcode (c : Bool) : (s.skipIf c).opcode = s.opcode := by
  unfold State.skipIf; split <;> rfl
@[simp] theorem State.skipIf_fault (c : Bool) : (s.skipIf c).fault = s.fault := by
  unfold State.skipIf; split <;> rfl
@[simp] theorem State.skipIf_keypadIn (c : Bool) : (s.skipIf c).keypadIn = s.keypadIn := by
  unfold State.skipIf; split <;> rfl
@[simp] theorem State.skipIf_cfgIn (c : Bool) : (s.skipIf c).cfgIn = s.cfgIn := by
  unfold State.skipIf; split <;> rfl
@[simp] theorem State.skipIf_randIn (c : Bool) : (s.skipIf c).randIn = s.randIn := by
  unfold State.skipIf; split <;> rfl
@[simp] theorem State.skipIf_draws (c : Bool) : (s.skipIf c).draws = s.draws := by
  unfold State.skipIf; split <;> rfl
@[simp] theorem State.skipIf_params (c : Bool) : (s.skipIf c).params = s.params := by
  unfold State.skipIf; split <;> rfl

@[simp] theorem State.advanceIndex_v (x : RegIdx) : (s.advanceIndex x).v = s.v := by
  unfold State.advanceIndex; split <;> rfl
@[simp] theorem State.advanceIndex_pc (x : RegIdx) : (s.advanceIndex x).pc = s.pc := by
  unfold State.advanceIndex; split <;> rfl
@[simp] theorem State.advanceIndex_stack (x : RegIdx) : (s.advanceIndex x).stack = s.stack := by
  unfold State.advanceIndex; split <;> rfl
@[simp] theorem State.advanceIndex_sp (x : RegIdx) : (s.advanceIndex x).sp = s.sp := by
  unfold State.advanceIndex; split <;> rfl
@[simp] theorem State.advanceIndex_delay (x : RegIdx) : (s.advanceIndex x).delay = s.delay := by
  unfold State.advanceIndex; split <;> rfl
@[simp] theorem State.advanceIndex_sound (x : RegIdx) : (s.advanceIndex x).sound = s.sound := by
  unfold State.advanceIndex; split <;> rfl
@[simp] theorem State.advanceIndex_keypad (x : RegIdx) : (s.advanceIndex x).keypad = s.keypad := by
  unfold State.advanceIndex; split <;> rfl
@[simp] theorem State.advanceIndex_display (x : RegIdx) : (s.advanceIndex x).display = s.display := by
  unfold State.advanceIndex; split <;> rfl
@[simp] theorem State.advanceIndex_mem (x : RegIdx) : (s.advanceIndex x).mem = s.mem := by
  unfold State.advanceIndex; split <;> rfl
@[simp] theorem State.advanceIndex_opcode (x : RegIdx) : (s.advanceIndex x).opcode = s.opcode := by
  unfold State.advanceIndex; split <;> rfl
@[simp] theorem State.advanceIndex_fault (x : RegIdx) : (s.advanceIndex x).fault = s.fault := by
  unfold State.advanceIndex; split <;> rfl
@[simp] theorem State.advanceIndex_keypadIn (x : RegIdx) : (s.advanceIndex x).keypadIn = s.keypadIn := by
  unfold State.advanceIndex; split <;> rfl
@[simp] theorem State.advanceIndex_cfgIn (x : RegIdx) : (s.advanceIndex x).cfgIn = s.cfgIn := by
  unfold State.advanceIndex; split <;> rfl
@[simp] theorem State.advanceIndex_randIn (x : RegIdx) : (s.advanceIndex x).randIn = s.randIn := by
  unfold State.advanceIndex; split <;> rfl
@[simp] theorem State.advanceIndex_draws (x : RegIdx) : (s.advanceIndex x).draws = s.draws := by
  unfold State.advanceIndex; split <;> rfl
@[simp] theorem State.advanceIndex_params (x : RegIdx) : (s.advanceIndex x).params = s.params := by
  unfold State.advanceIndex; split <;> rfl

@[simp] theorem State.writeRF_index (x : RegIdx) (r : Byte) (c : Bool) : (s.writeRF x r c).index = s.index := by
  unfold State.writeRF; split <;> rfl
@[simp] theorem State.writeRF_pc (x : RegIdx) (r : Byte) (c : Bool) : (s.writeRF x r c).pc = s.pc := by
  unfold State.writeRF; split <;> rfl
@[simp] theorem State.writeRF_stack (x : RegIdx) (r : Byte) (c : Bool) : (s.writeRF x r c).stack = s.stack := by
  unfold State.writeRF; split <;> rfl
@[simp] theorem State.writeRF_sp (x : RegIdx) (r : Byte) (c : Bool) : (s.writeRF x r c).sp = s.sp := by
  unfold State.writeRF; split <;> rfl
@[simp] theorem State.writeRF_delay (x : RegIdx) (r : Byte) (c : Bool) : (s.writeRF x r c).delay = s.delay := by
  unfold State.writeRF; split <;> rfl
@[simp] theorem State.writeRF_sound (x : RegIdx) (r : Byte) (c : Bool) : (s.writeRF x r c).sound = s.sound := by
  unfold State.writeRF; split <;> rfl
@[simp] theorem State.writeRF_keypad (x : RegIdx) (r : Byte) (c : Bool) : (s.writeRF x r c).keypad = s.keypad := by
  unfold State.writeRF; split <;> rfl
@[simp] theorem State.writeRF_display (x : RegIdx) (r : Byte) (c : Bool) : (s.writeRF x r c).display = s.display := by
  unfold State.writeRF; split <;> rfl
@[simp] theorem State.writeRF_mem (x : RegIdx) (r : Byte) (c : Bool) : (s.writeRF x r c).mem = s.mem := by
  unfold State.writeRF; split <;> rfl
@[simp] theorem State.writeRF_opcode (x : RegIdx) (r : Byte) (c : Bool) : (s.writeRF x r c).opcode = s.opcode := by
  unfold State.writeRF; split <;> rfl
@[simp] theorem State.writeRF_fault (x : RegIdx) (r : Byte) (c : Bool) : (s.writeRF x r c).fault = s.fault := by
  unfold State.writeRF; split <;> rfl
@[simp] theorem State.writeRF_keypadIn (x : RegIdx) (r : Byte) (c : Bool) : (s.writeRF x r c).keypadIn = s.keypadIn := by
  unfold State.writeRF; split <;> rfl
@[simp] theorem State.writeRF_cfgIn (x : RegIdx) (r : Byte) (c : Bool) : (s.writeRF x r c).cfgIn = s.cfgIn := by
  unfold State.writeRF; split <;> rfl
@[simp] theorem State.writeRF_randIn (x : RegIdx) (r : Byte) (c : Bool) : (s.writeRF x r c).randIn = s.randIn := by
  unfold State.writeRF; split <;> rfl
@[simp] theorem State.writeRF_draws (x : RegIdx) (r : Byte) (c : Bool) : (s.writeRF x r c).draws = s.draws := by
  unfold State.writeRF; split <;> rfl
@[simp] theorem State.writeRF_params (x : RegIdx) (r : Byte) (c : Bool) : (s.writeRF x r c).params = s.params := by
  unfold State.writeRF; split <;> rfl

@[simp] theorem State.endOfStep_v : s.endOfStep.v = s.v := by
  unfold State.endOfStep; split <;> rfl
@[simp] theorem State.endOfStep_index : s.endOfStep.index = s.index := by
  unfold State.endOfStep; split <;> rfl
@[simp] theorem State.endOfStep_pc : s.endOfStep.pc = s.pc := by
  unfold State.endOfStep; split <;> rfl
@[simp] theorem State.endOfStep_stack : s.endOfStep.stack = s.stack := by
  unfold State.endOfStep; split <;> rfl
@[simp] theorem State.endOfStep_sp : s.endOfStep.sp = s.sp := by
  unfold State.endOfStep; split <;> rfl
@[simp] theorem State.endOfStep_keypad : s.endOfStep.keypad = s.keypad := by
  unfold State.endOfStep; split <;> rfl
@[simp] theorem State.endOfStep_display : s.endOfStep.display = s.display := by
  unfold State.endOfStep; split <;> rfl
@[simp] theorem State.endOfStep_mem : s.endOfStep.mem = s.mem := by
  unfold State.endOfStep; split <;> rfl
@[simp] theorem State.endOfStep_opcode : s.endOfStep.opcode = s.opcode := by
  unfold State.endOfStep; split <;> rfl
@[simp] theorem State.endOfStep_fault : s.endOfStep.fault = s.fault := by
  unfold State.endOfStep; split <;> rfl
@[simp] theorem State.endOfStep_keypadIn : s.endOfStep.keypadIn = s.keypadIn := by
  unfold State.endOfStep; split <;> rfl
@[simp] theorem State.endOfStep_cfgIn : s.endOfStep.cfgIn = s.cfgIn := by
  unfold State.endOfStep; split <;> rfl
@[simp] theorem State.endOfStep_randIn : s.endOfStep.randIn = s.randIn := by
  unfold State.endOfStep; split <;> rfl
@[simp] theorem State.endOfStep_draws : s.endOfStep.draws = s.draws := by
  unfold State.endOfStep; split <;> rfl
@[simp] theorem State.endOfStep_params : s.endOfStep.params = s.params := by
  unfold State.endOfStep; split <;> rfl

/-- A skip's effect on `pc`. -/
@[simp] theorem State.skipIf_pc (c : Bool) : (s.skipIf c).pc = if c then s.pc + 2 else s.pc := by
  cases c <;> rfl

/-- The increment quirk's effect on `index`. -/
@[simp] theorem State.advanceIndex_index (x : RegIdx) : (s.advanceIndex x).index =
    if s.cfgIn.indexIncrementQuirk then s.index + BitVec.ofNat 16 (x.val + 1) else s.index := by
  unfold State.advanceIndex; split <;> rfl

/-! ### Reading one register -/

/-- A register reads as it was written, and every other as before. -/
@[simp] theorem State.getV_setV (i j : RegIdx) (b : Byte) :
    (s.setV i b).getV j = if j = i then b else s.getV j := by
  unfold State.getV State.setV
  simp only [Vector.getElem_set, Fin.ext_iff, eq_comm]

@[simp] theorem State.getV_setFlag (j : RegIdx) (c : Bool) :
    (s.setFlag c).getV j = if j = vfIdx then flagByte c else s.getV j := State.getV_setV ..

@[simp] theorem State.getV_setIndex (w : Word) (j : RegIdx) : (s.setIndex w).getV j = s.getV j := rfl
@[simp] theorem State.getV_setPc (w : Word) (j : RegIdx) : (s.setPc w).getV j = s.getV j := rfl
@[simp] theorem State.getV_setDelay (b : Byte) (j : RegIdx) : (s.setDelay b).getV j = s.getV j := rfl
@[simp] theorem State.getV_setSound (b : Byte) (j : RegIdx) : (s.setSound b).getV j = s.getV j := rfl
@[simp] theorem State.getV_setDisplay (d : Display) (j : RegIdx) : (s.setDisplay d).getV j = s.getV j := rfl
@[simp] theorem State.getV_nextDraw (j : RegIdx) : s.nextDraw.getV j = s.getV j := rfl
@[simp] theorem State.getV_timerTick (j : RegIdx) : s.timerTick.getV j = s.getV j := rfl

@[simp] theorem State.getV_skipIf (c : Bool) (j : RegIdx) : (s.skipIf c).getV j = s.getV j := by
  cases c <;> rfl

@[simp] theorem State.getV_advanceIndex (x j : RegIdx) : (s.advanceIndex x).getV j = s.getV j := by
  unfold State.advanceIndex; split <;> rfl

/-- `WriteRF` says what each register reads after: with X = F the parameter decides (42_alu.md R141). -/
theorem State.getV_writeRF (x j : RegIdx) (r : Byte) (c : Bool) : (s.writeRF x r c).getV j =
    if j = vfIdx ∧ (x ≠ vfIdx ∨ s.params.vfFlagLast = true) then flagByte c
    else if j = x then r else s.getV j := by
  unfold State.writeRF
  split
  · rename_i hl
    simp [hl]
  · rename_i hl
    by_cases hx : x = vfIdx
    · subst hx
      simp [hl]
      split <;> rfl
    · by_cases hj : j = vfIdx
      · subst hj
        simp [hx, Ne.symm hx]
      · simp [hj]

/-- Two register files that read alike are equal. -/
theorem RegFile.ext_getV {s t : State} (h : ∀ j, s.getV j = t.getV j) : s.v = t.v :=
  Vector.ext fun i hi => h ⟨i, hi⟩

/-! ### Reading one byte of memory -/

/-- A byte read depends on memory and font alone. -/
theorem State.byteAt_congr {s t : State} (hm : t.mem = s.mem) (hp : t.params = s.params) (a : Nat) :
    t.byteAt a = s.byteAt a := by simp [State.byteAt, hm, hp]

end Sys2Proof.Machine
end

