-- ==== Sys2Proof/Laws/Memory.lean ====
section
/-! SUPPORT. The laws of memory: read after write, the frame of a write, and the canonical form. -/

namespace Sys2Proof.Machine

-- One theorem at a time: each waiting one holds a thread of its own.
set_option Elab.async false

variable (font : Font)

/-- No entry at `a` where every entry lies above `a`. -/
theorem Memory.find_eq_none {m : Memory} {a : Nat} (h : ∀ c ∈ m, a < c.1) : m.find a = none := by
  induction m with
  | nil => rfl
  | cons c m ih =>
    obtain ⟨k, b⟩ := c
    have hk : a < k := h (k, b) (by simp)
    simp only [Memory.find, if_neg (by omega : ¬ k = a)]
    exact ih fun c hc => h c (by simp [hc])

/-- What a listed address finds is an entry. -/
theorem Memory.mem_of_find {m : Memory} {a : Nat} {b : Byte} (h : m.find a = some b) : (a, b) ∈ m := by
  induction m with
  | nil => cases h
  | cons c m ih =>
    obtain ⟨k, d⟩ := c
    simp only [Memory.find] at h
    split at h
    · simp_all
    · simp [ih h]

/-- The canonical form's tail. -/
theorem Memory.wf_tail {c : Host.Cell} {m : Memory} (h : Memory.wf font (c :: m)) : Memory.wf font m :=
  ⟨(List.pairwise_cons.1 h.1).2, fun d hd => h.2 d (by simp [hd])⟩

/-- In the canonical form every entry of the tail lies above the head. -/
theorem Memory.wf_head {c : Host.Cell} {m : Memory} (h : Memory.wf font (c :: m)) : ∀ d ∈ m, c.1 < d.1 :=
  (List.pairwise_cons.1 h.1).1

/-! ### `Memory.cons` -/

/-- The written address reads as written. -/
theorem Memory.read_cons_self {m : Memory} {a : Nat} (b : Byte) (h : ∀ c ∈ m, a < c.1) :
    (Memory.cons font a b m).read font a = b := by
  unfold Memory.cons
  split
  · rename_i hb
    rw [Memory.read, Memory.find_eq_none h, hb]
    rfl
  · simp [Memory.read, Memory.find]

/-- Every other address reads as before. -/
theorem Memory.read_cons_of_ne {m : Memory} {a d : Nat} (b : Byte) (h : d ≠ a) :
    (Memory.cons font a b m).read font d = m.read font d := by
  unfold Memory.cons
  split
  · rfl
  · simp [Memory.read, Memory.find, h.symm]

/-- The entries are those there were and perhaps the written one. -/
theorem Memory.mem_cons {m : Memory} {a : Nat} {b : Byte} {c : Host.Cell}
    (h : c ∈ Memory.cons font a b m) : c = (a, b) ∨ c ∈ m := by
  unfold Memory.cons at h
  split at h
  · exact .inr h
  · simpa using h

/-- `Memory.cons` keeps the canonical form. -/
theorem Memory.wf_cons {m : Memory} {a : Nat} {b : Byte} (hm : Memory.wf font m) (h : ∀ c ∈ m, a < c.1) :
    Memory.wf font (Memory.cons font a b m) := by
  unfold Memory.cons
  split
  · exact hm
  · rename_i hb
    refine ⟨List.pairwise_cons.2 ⟨h, hm.1⟩, ?_⟩
    intro c hc
    rcases List.mem_cons.1 hc with rfl | hc
    · exact hb
    · exact hm.2 c hc

/-! ### `Memory.write` -/

/-- Read after write, elsewhere: no other address changes. -/
theorem Memory.read_write_of_ne (m : Memory) {a d : Nat} (b : Byte) (h : d ≠ a) :
    (m.write font a b).read font d = m.read font d := by
  induction m with
  | nil => exact Memory.read_cons_of_ne font b h
  | cons c m ih =>
    obtain ⟨k, e⟩ := c
    simp only [Memory.write]
    split
    · simp only [Memory.read, Memory.find] at ih ⊢
      split
      · rfl
      · exact ih
    · split
      · rename_i hk
        subst hk
        rw [Memory.read_cons_of_ne font b h]
        simp [Memory.read, Memory.find, h.symm]
      · exact Memory.read_cons_of_ne font b h

/-- The entries after a write are those there were and perhaps the written one. -/
theorem Memory.mem_write {m : Memory} {a : Nat} {b : Byte} {c : Host.Cell}
    (h : c ∈ m.write font a b) : c = (a, b) ∨ c ∈ m := by
  induction m with
  | nil => exact Memory.mem_cons font h
  | cons d m ih =>
    obtain ⟨k, e⟩ := d
    simp only [Memory.write] at h
    split at h
    · rcases List.mem_cons.1 h with rfl | h
      · simp
      · rcases ih h with h | h <;> simp [h]
    · split at h
      · rcases Memory.mem_cons font h with h | h <;> simp [h]
      · exact Memory.mem_cons font h

/-- Read after write, at the same address. -/
theorem Memory.read_write_self {m : Memory} (hm : Memory.wf font m) (a : Nat) (b : Byte) :
    (m.write font a b).read font a = b := by
  induction m with
  | nil => exact Memory.read_cons_self font b (by simp)
  | cons c m ih =>
    obtain ⟨k, e⟩ := c
    have hh := Memory.wf_head font hm
    simp only [Memory.write]
    split
    · rename_i hk
      have := ih (Memory.wf_tail font hm)
      have hka : ¬ k = a := by omega
      simpa [Memory.read, Memory.find, hka] using this
    · split
      · rename_i hk
        exact Memory.read_cons_self font b (hk ▸ hh)
      · refine Memory.read_cons_self font b fun c hc => ?_
        rcases List.mem_cons.1 hc with rfl | hc
        · simp only; omega
        · have := hh c hc
          simp only at this; omega

/-- A write keeps the canonical form. -/
theorem Memory.wf_write {m : Memory} (hm : Memory.wf font m) (a : Nat) (b : Byte) :
    Memory.wf font (m.write font a b) := by
  induction m with
  | nil => exact Memory.wf_cons font hm (by simp)
  | cons c m ih =>
    obtain ⟨k, e⟩ := c
    have hh := Memory.wf_head font hm
    have ht := Memory.wf_tail font hm
    simp only [Memory.write]
    split
    · rename_i hk
      have hw := ih ht
      refine ⟨List.pairwise_cons.2 ⟨fun d hd => ?_, hw.1⟩, fun d hd => ?_⟩
      · rcases Memory.mem_write font hd with rfl | hd
        · exact hk
        · exact hh d hd
      · rcases List.mem_cons.1 hd with rfl | hd
        · exact hm.2 _ (by simp)
        · exact hw.2 d hd
    · split
      · rename_i hk
        exact Memory.wf_cons font ht (hk ▸ hh)
      · refine Memory.wf_cons font hm fun c hc => ?_
        rcases List.mem_cons.1 hc with rfl | hc
        · simp only; omega
        · have := hh c hc
          simp only at this; omega

/-! ### `Memory.writeList` -/

/-- A block write keeps the canonical form. -/
theorem Memory.wf_writeList (bs : List Byte) : ∀ {m : Memory} (a : Nat), Memory.wf font m →
    Memory.wf font (m.writeList font a bs) := by
  induction bs with
  | nil => exact fun _ h => h
  | cons b bs ih => exact fun a h => ih (a + 1) (Memory.wf_write font h a b)

/-- A block write leaves every byte outside the block alone. -/
theorem Memory.read_writeList_outside (bs : List Byte) : ∀ (m : Memory) (a d : Nat),
    d < a ∨ a + bs.length ≤ d → (m.writeList font a bs).read font d = m.read font d := by
  induction bs with
  | nil => exact fun _ _ _ _ => rfl
  | cons b bs ih =>
    intro m a d h
    simp only [List.length_cons] at h
    rw [Memory.writeList, ih _ _ _ (by omega), Memory.read_write_of_ne font m b (by omega)]

/-- A block write's bytes read as written. -/
theorem Memory.read_writeList_inside (bs : List Byte) : ∀ {m : Memory} (a i : Nat), Memory.wf font m →
    (h : i < bs.length) → (m.writeList font a bs).read font (a + i) = bs[i] := by
  induction bs with
  | nil => exact fun _ _ _ h => absurd h (by simp)
  | cons b bs ih =>
    intro m a i hm h
    cases i with
    | zero =>
      rw [Memory.writeList, Memory.read_writeList_outside font bs _ _ _ (by omega)]
      simpa using Memory.read_write_self font hm a b
    | succ i =>
      have := ih (a + 1) i (Memory.wf_write font hm a b) (by simpa using h)
      simpa [Memory.writeList, Nat.add_assoc, Nat.add_comm 1 i] using this

/-- The entries after a block write. -/
theorem Memory.mem_writeList (bs : List Byte) : ∀ {m : Memory} {a : Nat} {c : Host.Cell},
    c ∈ m.writeList font a bs → (a ≤ c.1 ∧ c.1 < a + bs.length) ∨ c ∈ m := by
  induction bs with
  | nil => exact fun h => .inr h
  | cons b bs ih =>
    intro m a c h
    simp only [List.length_cons]
    rcases ih h with h | h
    · exact .inl (by omega)
    · rcases Memory.mem_write font h with rfl | h
      · exact .inl (by simp only; omega)
      · exact .inr h

/-! ### Equal memories are equal data -/

/-- Two canonical memories that read alike everywhere are the same list. -/
theorem Memory.ext_of_wf {m n : Memory} (hm : Memory.wf font m) (hn : Memory.wf font n)
    (h : ∀ a, m.read font a = n.read font a) : m = n := by
  induction m generalizing n with
  | nil =>
    cases n with
    | nil => rfl
    | cons c n =>
      obtain ⟨k, b⟩ := c
      have := h k
      simp only [Memory.read, Memory.find, if_true, Option.getD_none, Option.getD_some] at this
      exact absurd this.symm (hn.2 (k, b) (by simp))
  | cons c m ih =>
    obtain ⟨k, b⟩ := c
    have hmt := Memory.find_eq_none (Memory.wf_head font hm)
    cases n with
    | nil =>
      have := h k
      simp only [Memory.read, Memory.find, if_true, Option.getD_none, Option.getD_some] at this
      exact absurd this (hm.2 (k, b) (by simp))
    | cons d n =>
      obtain ⟨l, e⟩ := d
      have hnt := Memory.find_eq_none (Memory.wf_head font hn)
      have hkl : k = l := by
        rcases Nat.lt_trichotomy k l with hlt | heq | hgt
        · have hnone : Memory.find ((l, e) :: n) k = none := Memory.find_eq_none fun c hc => by
            rcases List.mem_cons.1 hc with rfl | hc
            · exact hlt
            · have := Memory.wf_head font hn c hc
              simp only at this; omega
          have := h k
          rw [Memory.read, Memory.read, hnone] at this
          simp only [Memory.find, if_true, Option.getD_none, Option.getD_some] at this
          exact absurd this (hm.2 (k, b) (by simp))
        · exact heq
        · have hnone : Memory.find ((k, b) :: m) l = none := Memory.find_eq_none fun c hc => by
            rcases List.mem_cons.1 hc with rfl | hc
            · exact hgt
            · have := Memory.wf_head font hm c hc
              simp only at this; omega
          have := h l
          rw [Memory.read, Memory.read, hnone] at this
          simp only [Memory.find, if_true, Option.getD_none, Option.getD_some] at this
          exact absurd this.symm (hn.2 (l, e) (by simp))
      subst hkl
      have hbe : b = e := by simpa [Memory.read, Memory.find] using h k
      subst hbe
      congr 1
      refine ih (Memory.wf_tail font hm) (Memory.wf_tail font hn) fun a => ?_
      by_cases ha : k = a
      · subst ha
        simp only at hmt hnt
        simp [Memory.read, hmt, hnt]
      · simpa [Memory.read, Memory.find, ha] using h a

end Sys2Proof.Machine
end

