-- ==== Sys2Proof/Laws/Ops.lean ====
section
/-! SUPPORT. One lemma per shared operation that says everything it can do. -/

namespace Sys2Proof.Machine

-- One theorem at a time: each waiting one holds a thread of its own.
set_option Elab.async false

variable (s : State)

/-! ### Byte accesses (20_memory.md R67) -/

theorem State.memRead_ok {a : Nat} (h : a < memorySize) : s.memRead a = .ok (s.byteAt a) := by
  simp [State.memRead, Nat.not_le.2 h]

theorem State.memRead_error {a : Nat} (h : memorySize ≤ a) :
    s.memRead a = .error ⟨.outOfBoundsAccess, a⟩ := by simp [State.memRead, h]

theorem State.memWrite_ok {a : Nat} (b : Byte) (hl : fontSize ≤ a) (hh : a < memorySize) :
    s.memWrite a b = .ok { s with mem := s.mem.write s.params.font a b } := by
  simp [State.memWrite, Nat.not_le.2 hh, Nat.not_lt.2 hl]

theorem State.memWrite_protected {a : Nat} (b : Byte) (h : a < fontSize) :
    s.memWrite a b = .error ⟨.protectedWrite, a⟩ := by
  have : ¬ memorySize ≤ a := by unfold memorySize; unfold fontSize at h; omega
  simp [State.memWrite, this, h]

theorem State.memWrite_error {a : Nat} (b : Byte) (h : memorySize ≤ a) :
    s.memWrite a b = .error ⟨.outOfBoundsAccess, a⟩ := by simp [State.memWrite, h]

/-- A block read inside memory gives the bytes. -/
theorem State.readBytes_ok (n : Nat) : ∀ a, a + n ≤ memorySize →
    s.readBytes a n = .ok ((List.range' a n).map s.byteAt) := by
  induction n with
  | zero => exact fun _ _ => rfl
  | succ n ih =>
    intro a h
    rw [State.readBytes, s.memRead_ok (by omega), ih (a + 1) (by omega)]
    rfl

/-- A block read past memory raises at the first address outside. -/
theorem State.readBytes_error (n : Nat) : ∀ a, 0 < n → memorySize < a + n →
    s.readBytes a n = .error ⟨.outOfBoundsAccess, max a memorySize⟩ := by
  induction n with
  | zero => exact fun _ h => absurd h (by omega)
  | succ n ih =>
    intro a _ h
    by_cases ha : memorySize ≤ a
    · rw [State.readBytes, s.memRead_error ha, Nat.max_eq_left ha]
    · rw [State.readBytes, s.memRead_ok (by omega), ih (a + 1) (by omega) (by omega)]
      simp only
      rw [Nat.max_eq_right (by omega), Nat.max_eq_right (by omega)]

/-- A block write inside the writable addresses stores the bytes and changes memory alone. -/
theorem State.writeBytes_ok (bs : List Byte) : ∀ (s : State) (a : Nat), fontSize ≤ a →
    a + bs.length ≤ memorySize →
    s.writeBytes a bs = .ok { s with mem := s.mem.writeList s.params.font a bs } := by
  induction bs with
  | nil => exact fun _ _ _ _ => rfl
  | cons b bs ih =>
    intro s a hl hh
    simp only [List.length_cons] at hh
    rw [State.writeBytes, s.memWrite_ok b hl (by omega)]
    simp only
    rw [ih _ (a + 1) (by omega) (by omega)]
    rfl

/-- A block write from the font region raises at its first byte. -/
theorem State.writeBytes_protected {a : Nat} {bs : List Byte} (hb : bs ≠ []) (h : a < fontSize) :
    s.writeBytes a bs = .error ⟨.protectedWrite, a⟩ := by
  cases bs with
  | nil => exact absurd rfl hb
  | cons b bs => rw [State.writeBytes, s.memWrite_protected b h]

/-- A block write past memory raises at the first address outside. -/
theorem State.writeBytes_error (bs : List Byte) : ∀ (s : State) (a : Nat), bs ≠ [] → fontSize ≤ a →
    memorySize < a + bs.length →
    s.writeBytes a bs = .error ⟨.outOfBoundsAccess, max a memorySize⟩ := by
  induction bs with
  | nil => exact fun _ _ h => absurd rfl h
  | cons b bs ih =>
    intro s a _ hl hh
    simp only [List.length_cons] at hh
    by_cases ha : memorySize ≤ a
    · rw [State.writeBytes, s.memWrite_error b ha, Nat.max_eq_left ha]
    · rw [State.writeBytes, s.memWrite_ok b hl (by omega)]
      simp only
      rw [ih _ (a + 1) (by rintro rfl; simp at hh; omega) (by omega) (by omega),
        Nat.max_eq_right (by omega), Nat.max_eq_right (by omega)]

/-- What a block write does, in full: it raises the closed form's fault or stores the bytes. -/
theorem State.writeBytes_eq (a : Nat) {bs : List Byte} (hb : bs ≠ []) : s.writeBytes a bs =
    match storeFault a bs.length with
    | some r => .error r
    | none => .ok { s with mem := s.mem.writeList s.params.font a bs } := by
  unfold storeFault overrun
  split_ifs with h1 h2
  · exact s.writeBytes_protected hb h1
  · exact State.writeBytes_ok bs s a (by omega) h2
  · exact State.writeBytes_error bs s a hb (by omega) (by omega)

/-- What a block read does, in full. -/
theorem State.readBytes_eq (a : Nat) {n : Nat} (hn : 0 < n) : s.readBytes a n =
    match overrun a n with
    | some r => .error r
    | none => .ok ((List.range' a n).map s.byteAt) := by
  unfold overrun
  split_ifs with h
  · exact s.readBytes_ok n a h
  · exact s.readBytes_error n a hn (by omega)

/-! ### Registers in blocks -/

/-- A block load of registers changes nothing but the registers. -/
theorem State.setVs_only (bs : List Byte) : ∀ (s : State) (i : Nat),
    s.setVs i bs = { s with v := (s.setVs i bs).v } := by
  induction bs with
  | nil => exact fun _ _ => rfl
  | cons b bs ih =>
    intro s i
    rw [State.setVs, ih]
    split <;> rfl

/-- A block load's registers read as loaded, every other as before. -/
theorem State.getV_setVs (bs : List Byte) : ∀ (s : State) (i : Nat) (j : RegIdx),
    (s.setVs i bs).getV j = if h : i ≤ j.val ∧ j.val < i + bs.length then bs[j.val - i] else s.getV j := by
  induction bs with
  | nil => intro s i j; simp [State.setVs]
  | cons b bs ih =>
    intro s i j
    rw [State.setVs, ih]
    have hj := j.isLt
    by_cases hij : j.val = i
    · subst hij
      rw [dif_neg (by omega), dif_pos j.isLt, State.getV_setV]
      simp
    · have hs : (if h : i < 16 then s.setV ⟨i, h⟩ b else s).getV j = s.getV j := by
        split
        · rw [State.getV_setV, if_neg fun h => hij (by simp [h])]
        · rfl
      rw [hs]
      by_cases hr : i + 1 ≤ j.val ∧ j.val < i + 1 + bs.length
      · rw [dif_pos hr, dif_pos (by simp only [List.length_cons]; omega)]
        have : j.val - i = j.val - (i + 1) + 1 := by omega
        simp [this]
      · rw [dif_neg hr, dif_neg (by simp only [List.length_cons]; omega)]

@[simp] theorem State.length_regsUpTo (x : RegIdx) : (s.regsUpTo x).length = x.val + 1 := by
  have := x.isLt
  simp only [State.regsUpTo, List.length_take, Vector.length_toList]; omega

theorem State.getElem_regsUpTo (x : RegIdx) (i : Nat) (h : i < (s.regsUpTo x).length) (h' : i < 16) :
    (s.regsUpTo x)[i] = s.getV ⟨i, h'⟩ := by
  simp [State.regsUpTo, State.getV]

/-! ### The call stack -/

theorem State.push_eq (w : Word) (h : s.sp.val < 16) :
    s.push w = some { s with stack := s.stack.set s.sp.val w, sp := ⟨s.sp.val + 1, by omega⟩ } := by
  simp [State.push, h]

theorem State.push_full (w : Word) (h : s.sp.val = 16) : s.push w = none := by simp [State.push, h]

theorem State.pop_eq (h : 0 < s.sp.val) :
    s.pop = some (s.stack[s.sp.val - 1]'(by omega), { s with sp := ⟨s.sp.val - 1, by omega⟩ }) := by
  simp [State.pop, h]

theorem State.pop_empty (h : s.sp.val = 0) : s.pop = none := by simp [State.pop, h]

/-! ### Numbers of keys and glyphs -/

theorem State.smallNumber_eq (x : RegIdx) (k : Fault) : s.smallNumber x k =
    match numberFault (s.getV x) k with
    | some r => .error r
    | none => .ok (s.getV x).toNat := by
  unfold State.smallNumber numberFault
  split <;> rfl

/-! ### The key scan -/

/-- The scan finds the first true flag. -/
theorem firstTrue_eq_some (bs : List Bool) : ∀ (k i : Nat), firstTrue bs k = some i ↔
    k ≤ i ∧ bs[i - k]? = some true ∧ ∀ j, j < i - k → bs[j]? = some false := by
  induction bs with
  | nil => simp [firstTrue]
  | cons b bs ih =>
    intro k i
    cases b with
    | true =>
      simp only [firstTrue, if_true, Option.some.injEq]
      constructor
      · rintro rfl; simp
      · rintro ⟨hk, -, hf⟩
        by_contra hne
        have := hf 0 (by omega)
        simp at this
    | false =>
      simp only [firstTrue, Bool.false_eq_true, if_false, ih]
      constructor
      · rintro ⟨hk, ht, hf⟩
        have he : i - k = i - (k + 1) + 1 := by omega
        refine ⟨by omega, by rw [he]; simpa using ht, fun j hj => ?_⟩
        cases j with
        | zero => simp
        | succ j => simpa using hf j (by omega)
      · rintro ⟨hk, ht, hf⟩
        have hki : k ≠ i := by rintro rfl; simp at ht
        have he : i - k = i - (k + 1) + 1 := by omega
        refine ⟨by omega, by rw [he] at ht; simpa using ht, fun j hj => ?_⟩
        simpa using hf (j + 1) (by omega)

/-- The scan finds none exactly when every flag is false. -/
theorem firstTrue_eq_none (bs : List Bool) : ∀ k, firstTrue bs k = none ↔ ∀ b ∈ bs, b = false := by
  induction bs with
  | nil => simp [firstTrue]
  | cons b bs ih => intro k; cases b <;> simp [firstTrue, ih]

/-! ### The parts of a step -/

/-- A raised fault is a next state: the fetch advance undone and the record set. -/
theorem State.raise_eq (r : Raised) :
    s.raise r = .next { s with pc := s.pc - 2, fault := some (raisedRecord s r) } := rfl

/-- A completed step ends in the tick alone. -/
theorem State.finish_ok {t : State} (h : t.fault = none) : s.finish t = t.endOfStep := by
  simp [State.finish, h]

/-- A faulting step ends in its own beginning with the record. -/
theorem State.finish_fault {t : State} {r : FaultRecord} (h : t.fault = some r) :
    s.finish t = { s with fault := some r } := by simp [State.finish, h]

/-- A fetch from two bytes of memory gives the word. -/
theorem State.fetch_ok (h : s.pc.toNat + 1 < memorySize) : s.fetch = .ok (s.wordAt s.pc.toNat) := by
  simp [State.fetch, Nat.not_le.2 h]

/-- A fetch past memory raises. -/
theorem State.fetch_error (h : memorySize ≤ s.pc.toNat + 1) :
    s.fetch = .error ⟨.outOfBoundsFetch, s.pc.toNat⟩ := by simp [State.fetch, h]

end Sys2Proof.Machine
end

