-- ==== Sys2Proof/Laws/Draw.lean ====
section
/-! SUPPORT. What the sprite draw's two loops do, in closed form (44_draw.md R180). -/

namespace Sys2Proof.Machine

-- One theorem at a time: each waiting one holds a thread of its own.
set_option Elab.async false

/-! ### One pixel -/

/-- An inverted pixel, and every other pixel as before. -/
theorem Display.pixel_flip (d : Display) (x y x' y' : Nat) : Display.pixel (Display.flip d x y) x' y' =
    if x' = x ∧ y' = y ∧ x < 64 ∧ y < 32 then !Display.pixel d x y else Display.pixel d x' y' := by
  unfold Display.flip
  split_ifs with h1 h2 h2
  · obtain ⟨rfl, rfl, hx, hy⟩ := h2
    simp [Display.pixel, hx, hy]
  · unfold Display.pixel
    split
    · rename_i h3
      by_cases h4 : y = y'
      · subst h4
        have h5 : x ≠ x' := fun h => h2 ⟨h.symm, rfl, h1.1, h1.2⟩
        simp [h5]
      · simp [h4]
    · rfl
  · exact absurd ⟨h2.2.2.1, h2.2.2.2⟩ h1
  · rfl

/-- Two displays are equal when their pixels are. -/
theorem Display.ext_pixel {d e : Display} (h : ∀ x y, x < 64 → y < 32 → Display.pixel d x y = Display.pixel e x y) :
    d = e := by
  refine Vector.ext fun y hy => Vector.ext fun x hx => ?_
  have := h x y hx hy
  simpa [Display.pixel, hx, hy] using this

/-- A dark display's pixels are dark. -/
@[simp] theorem Display.pixel_dark (x y : Nat) : Display.pixel Display.dark x y = false := by
  simp [Display.pixel, Display.dark]

/-- Off the screen there is no pixel. -/
theorem Display.pixel_off (d : Display) {x y : Nat} (h : ¬ (x < 64 ∧ y < 32)) : Display.pixel d x y = false := by
  simp [Display.pixel, h]

/-- `display[x + 64*y]` is pixel (x, y) (44_draw.md R182). -/
theorem Display.cell_pixel (d : Display) (x y : Nat) (h : x < 64) : Display.cell d (x + 64 * y) = Display.pixel d x y := by
  rw [Display.cell, show (x + 64 * y) % 64 = x by omega, show (x + 64 * y) / 64 = y by omega]

/-! ### One row -/

/-- The sprite bit that falls on column `x` among the `k` columns from `col` on. -/
def columnBit (b : Byte) (x0 k col x : Nat) : Bool :=
  decide (x0 + col ≤ x) && decide (x < x0 + col + k) && decide (x < 64) && b.getLsbD (7 - (x - x0))

/-- The column loop inverts the pixels under sprite bits of 1. -/
theorem drawColumns_pixel (b : Byte) (x0 y : Nat) (hy : y < 32) (k : Nat) : ∀ (col : Nat) (c : Display × Bool) (x y' : Nat),
    Display.pixel (drawColumns b x0 y k col c).1 x y' =
      (Display.pixel c.1 x y' ^^ (decide (y' = y) && columnBit b x0 k col x)) := by
  induction k with
  | zero =>
    intro col c x y'
    have : columnBit b x0 0 col x = false := by
      simp only [columnBit, Bool.and_eq_false_iff, decide_eq_false_iff_not]; omega
    simp [drawColumns, this]
  | succ k ih =>
    intro col c x y'
    rw [drawColumns]
    split_ifs with hoff hbit
    · have : columnBit b x0 (k + 1) col x = false := by
        simp only [columnBit, Bool.and_eq_false_iff, decide_eq_false_iff_not]; omega
      simp [this]
    · rw [ih]
      simp only [plot, Display.pixel_flip]
      by_cases hx : x = x0 + col
      · subst hx
        have h1 : columnBit b x0 k (col + 1) (x0 + col) = false := by
          simp only [columnBit, Bool.and_eq_false_iff, decide_eq_false_iff_not]; omega
        have h2 : columnBit b x0 (k + 1) col (x0 + col) = true := by
          simp only [columnBit, Bool.and_eq_true, decide_eq_true_eq, Nat.add_sub_cancel_left]
          exact ⟨⟨⟨by omega, by omega⟩, by omega⟩, hbit⟩
        rw [h1, h2]
        by_cases hyy : y' = y
        · subst hyy
          simp [hy, (by omega : x0 + col < 64)]
        · simp [hyy]
      · have h1 : columnBit b x0 k (col + 1) x = columnBit b x0 (k + 1) col x := by
          simp only [columnBit]
          rw [decide_eq_decide.2 (by omega : x0 + (col + 1) ≤ x ↔ x0 + col ≤ x),
            decide_eq_decide.2 (by omega : x < x0 + (col + 1) + k ↔ x < x0 + col + (k + 1))]
        rw [h1, if_neg fun h => hx h.1]
    · rw [ih]
      by_cases hx : x = x0 + col
      · subst hx
        have h1 : columnBit b x0 k (col + 1) (x0 + col) = false := by
          simp only [columnBit, Bool.and_eq_false_iff, decide_eq_false_iff_not]; omega
        have h2 : columnBit b x0 (k + 1) col (x0 + col) = false := by
          simp only [columnBit, Nat.add_sub_cancel_left]
          simp [hbit]
        rw [h1, h2]
      · have h1 : columnBit b x0 k (col + 1) x = columnBit b x0 (k + 1) col x := by
          simp only [columnBit]
          rw [decide_eq_decide.2 (by omega : x0 + (col + 1) ≤ x ↔ x0 + col ≤ x),
            decide_eq_decide.2 (by omega : x < x0 + (col + 1) + k ↔ x < x0 + col + (k + 1))]
        rw [h1]

/-- The column loop reports a collision exactly when a sprite bit of 1 meets a lit pixel. -/
theorem drawColumns_hit (b : Byte) (x0 y k : Nat) : ∀ (col : Nat) (c : Display × Bool),
    (drawColumns b x0 y k col c).2 = true ↔
      c.2 = true ∨ ∃ x, columnBit b x0 k col x = true ∧ Display.pixel c.1 x y = true := by
  induction k with
  | zero =>
    intro col c
    have : ∀ x, columnBit b x0 0 col x = false := fun x => by
      simp only [columnBit, Bool.and_eq_false_iff, decide_eq_false_iff_not]; omega
    simp [drawColumns, this]
  | succ k ih =>
    intro col c
    have hne : ∀ x, x ≠ x0 + col → columnBit b x0 k (col + 1) x = columnBit b x0 (k + 1) col x := fun x hx => by
      simp only [columnBit]
      rw [decide_eq_decide.2 (by omega : x0 + (col + 1) ≤ x ↔ x0 + col ≤ x),
        decide_eq_decide.2 (by omega : x < x0 + (col + 1) + k ↔ x < x0 + col + (k + 1))]
    have heq : columnBit b x0 k (col + 1) (x0 + col) = false := by
      simp only [columnBit, Bool.and_eq_false_iff, decide_eq_false_iff_not]; omega
    rw [drawColumns]
    split_ifs with hoff hbit
    · have : ∀ x, columnBit b x0 (k + 1) col x = false := fun x => by
        simp only [columnBit, Bool.and_eq_false_iff, decide_eq_false_iff_not]; omega
      simp [this]
    · have hb : columnBit b x0 (k + 1) col (x0 + col) = true := by
        simp only [columnBit, Bool.and_eq_true, decide_eq_true_eq, Nat.add_sub_cancel_left]
        exact ⟨⟨⟨by omega, by omega⟩, by omega⟩, hbit⟩
      rw [ih]
      simp only [plot, Bool.or_eq_true]
      constructor
      · rintro ((h | h) | ⟨x, hx, hp⟩)
        · exact .inl h
        · exact .inr ⟨_, hb, h⟩
        · have hxn : x ≠ x0 + col := by rintro rfl; simp [heq] at hx
          rw [Display.pixel_flip, if_neg fun h => hxn h.1] at hp
          exact .inr ⟨x, hne x hxn ▸ hx, hp⟩
      · rintro (h | ⟨x, hx, hp⟩)
        · exact .inl (.inl h)
        · by_cases hxn : x = x0 + col
          · exact .inl (.inr (hxn ▸ hp))
          · refine .inr ⟨x, (hne x hxn).symm ▸ hx, ?_⟩
            rw [Display.pixel_flip, if_neg fun h => hxn h.1]
            exact hp
    · have hb : columnBit b x0 (k + 1) col (x0 + col) = false := by
        simp only [columnBit, Nat.add_sub_cancel_left]
        simp [hbit]
      rw [ih]
      constructor
      · rintro (h | ⟨x, hx, hp⟩)
        · exact .inl h
        · have hxn : x ≠ x0 + col := by rintro rfl; simp [heq] at hx
          exact .inr ⟨x, hne x hxn ▸ hx, hp⟩
      · rintro (h | ⟨x, hx, hp⟩)
        · exact .inl h
        · have hxn : x ≠ x0 + col := by rintro rfl; simp [hb] at hx
          exact .inr ⟨x, (hne x hxn).symm ▸ hx, hp⟩

/-! ### All rows -/

/-- The sprite bit that falls on pixel (x, y) among the `k` sprite rows from `row` on. -/
def State.rowsBit (s : State) (x0 y0 k row x y : Nat) : Bool :=
  decide (y0 + row ≤ y) && decide (y < y0 + row + k) && decide (y < 32) &&
    columnBit (s.byteAt (s.index.toNat + (y - y0))) x0 8 0 x

/-- The row loop, when every drawn row can be read: the pixels, and the collision. -/
theorem State.drawRows_ok (s : State) (x0 y0 k : Nat) : ∀ (row : Nat) (c : Display × Bool),
    (∀ r, row ≤ r → r < row + k → y0 + r < 32 → s.index.toNat + r < memorySize) →
    ∃ d, s.drawRows x0 y0 k row c = .ok d ∧
      (∀ x y, Display.pixel d.1 x y = (Display.pixel c.1 x y ^^ s.rowsBit x0 y0 k row x y)) ∧
      (d.2 = true ↔ c.2 = true ∨ ∃ x y, s.rowsBit x0 y0 k row x y = true ∧ Display.pixel c.1 x y = true) := by
  induction k with
  | zero =>
    intro row c _
    have : ∀ x y, s.rowsBit x0 y0 0 row x y = false := fun x y => by
      simp only [State.rowsBit, Bool.and_eq_false_iff, decide_eq_false_iff_not]; omega
    exact ⟨c, rfl, by simp [this], by simp [this]⟩
  | succ k ih =>
    intro row c hread
    rw [State.drawRows]
    split_ifs with hoff
    · have : ∀ x y, s.rowsBit x0 y0 (k + 1) row x y = false := fun x y => by
        simp only [State.rowsBit, Bool.and_eq_false_iff, decide_eq_false_iff_not]; omega
      exact ⟨c, rfl, by simp [this], by simp [this]⟩
    · rw [State.dataAddress, s.memRead_ok (hread row (by omega) (by omega) (by omega))]
      obtain ⟨d, hd, hpix, hhit⟩ := ih (row + 1)
        (drawColumns (s.byteAt (s.index.toNat + row)) x0 (y0 + row) 8 0 c)
        fun r h1 h2 h3 => hread r (by omega) (by omega) h3
      have hy : y0 + row < 32 := by omega
      have hsame : ∀ x, s.rowsBit x0 y0 (k + 1) row x (y0 + row) =
          columnBit (s.byteAt (s.index.toNat + row)) x0 8 0 x := fun x => by
        simp [State.rowsBit, hy]
      have hnext : ∀ x, s.rowsBit x0 y0 k (row + 1) x (y0 + row) = false := fun x => by
        simp only [State.rowsBit, Bool.and_eq_false_iff, decide_eq_false_iff_not]; omega
      have hother : ∀ x y, y ≠ y0 + row → s.rowsBit x0 y0 k (row + 1) x y = s.rowsBit x0 y0 (k + 1) row x y :=
        fun x y hne => by
          simp only [State.rowsBit]
          rw [decide_eq_decide.2 (by omega : y0 + (row + 1) ≤ y ↔ y0 + row ≤ y),
            decide_eq_decide.2 (by omega : y < y0 + (row + 1) + k ↔ y < y0 + row + (k + 1))]
      refine ⟨d, hd, fun x y => ?_, ?_⟩
      · rw [hpix, drawColumns_pixel _ _ _ hy]
        by_cases hyy : y = y0 + row
        · subst hyy
          rw [hnext, hsame]; simp
        · rw [hother x y hyy]; simp [hyy]
      · rw [hhit, drawColumns_hit]
        constructor
        · rintro ((h | ⟨x, hb, hp⟩) | ⟨x, y, hb, hp⟩)
          · exact .inl h
          · exact .inr ⟨x, y0 + row, (hsame x).trans hb, hp⟩
          · have hyy : y ≠ y0 + row := by rintro rfl; simp [hnext] at hb
            rw [drawColumns_pixel _ _ _ hy] at hp
            exact .inr ⟨x, y, hother x y hyy ▸ hb, by simpa [hyy] using hp⟩
        · rintro (h | ⟨x, y, hb, hp⟩)
          · exact .inl (.inl h)
          · by_cases hyy : y = y0 + row
            · subst hyy
              exact .inl (.inr ⟨x, (hsame x).symm.trans hb, hp⟩)
            · refine .inr ⟨x, y, (hother x y hyy).symm ▸ hb, ?_⟩
              rw [drawColumns_pixel _ _ _ hy]
              simpa [hyy] using hp

/-- The row loop raises at the first drawn row whose byte lies past memory. -/
theorem State.drawRows_error (s : State) (x0 y0 k : Nat) : ∀ (row : Nat) (c : Display × Bool) (r : Nat),
    row ≤ r → r < row + k → y0 + r < 32 → memorySize ≤ s.index.toNat + r →
    (∀ q, row ≤ q → q < r → s.index.toNat + q < memorySize) →
    s.drawRows x0 y0 k row c = .error ⟨.outOfBoundsAccess, s.index.toNat + r⟩ := by
  induction k with
  | zero => intro row c r h1 h2; omega
  | succ k ih =>
    intro row c r h1 h2 h3 h4 h5
    rw [State.drawRows, if_neg (by omega), State.dataAddress]
    by_cases hr : row = r
    · subst hr
      rw [s.memRead_error h4]
    · rw [s.memRead_ok (h5 row (by omega) (by omega))]
      exact ih (row + 1) _ r (by omega) (by omega) h3 h4 fun q hq1 hq2 => h5 q (by omega) hq2

end Sys2Proof.Machine
end

