-- ==== Sys2Proof/Laws/PerInstr.lean ====
section
/-! SUPPORT. The per-instruction family EncodeInRow: the encoder's word belongs to the instruction's own row of
opcode_table.json (30_encoding.md R90, R91). -/

namespace Sys2Proof

-- One theorem at a time: each waiting one holds a thread of its own.
set_option Elab.async false

/-- A word of the form F, NNN under the family's mask. -/
theorem packNNN_mask (f : BitVec 4) (nnn : BitVec 12) : packNNN f nnn &&& 0xF000 = packNNN f 0 := by
  rw [← packNNN_fields (packNNN f nnn &&& 0xF000)]
  have h : fieldNNN (packNNN f nnn &&& 0xF000) = 0 := by
    have hm : fieldNNN 0xF000 = 0#12 := by decide
    have ha : fieldNNN (packNNN f nnn &&& 0xF000) = fieldNNN (packNNN f nnn) &&& fieldNNN 0xF000 :=
      BitVec.extractLsb'_and ..
    rw [ha, hm, BitVec.and_zero]
    rfl
  have hf : fieldF 0xF000 = BitVec.allOnes 4 := by decide
  rw [h, fieldF_and, hf, BitVec.and_allOnes, fieldF_packNNN]

/-- A word of the form F, X, NN is one of the form F, NNN. -/
theorem packXNN_eq (f : BitVec 4) (x : RegIdx) (nn : Byte) :
    packXNN f x nn = packNNN f (fieldNNN (packXNN f x nn)) := by
  simpa using (packNNN_fields (packXNN f x nn)).symm

/-- A word of the form F, X, Y, N is one of the form F, NNN. -/
theorem packXYN_eq (f : BitVec 4) (x y : RegIdx) (n : BitVec 4) :
    packXYN f x y n = packNNN f (fieldNNN (packXYN f x y n)) := by
  simpa using (packNNN_fields (packXYN f x y n)).symm

/-- A word of the form F, X, NN under the mask of family and bottom byte. -/
theorem packXNN_mask (f : BitVec 4) (x : RegIdx) (nn : Byte) : packXNN f x nn &&& 0xF0FF = packXNN f 0 nn := by
  rw [← packXNN_fields (packXNN f x nn &&& 0xF0FF)]
  have hx : fieldX (packXNN f x nn &&& 0xF0FF) = 0 := by
    have hm : BitVec.extractLsb' 8 4 (0xF0FF : Word) = 0#4 := by decide
    have ha : fieldX (packXNN f x nn &&& 0xF0FF) =
        (BitVec.extractLsb' 8 4 (packXNN f x nn) &&& BitVec.extractLsb' 8 4 (0xF0FF : Word)).toFin :=
      congrArg BitVec.toFin (BitVec.extractLsb'_and ..)
    rw [ha, hm, BitVec.and_zero]
    rfl
  have hf : fieldF 0xF0FF = BitVec.allOnes 4 := by decide
  have hn : fieldNN 0xF0FF = BitVec.allOnes 8 := by decide
  rw [hx, fieldF_and, fieldNN_and, hf, hn, BitVec.and_allOnes, BitVec.and_allOnes, fieldF_packXNN, fieldNN_packXNN]

/-- A word of the form F, X, Y, N under the mask of family and bottom nibble. -/
theorem packXYN_mask (f : BitVec 4) (x y : RegIdx) (n : BitVec 4) :
    packXYN f x y n &&& 0xF00F = packXYN f 0 0 n := by
  rw [← packXYN_fields (packXYN f x y n &&& 0xF00F)]
  have hx : fieldX (packXYN f x y n &&& 0xF00F) = 0 := by
    have hm : BitVec.extractLsb' 8 4 (0xF00F : Word) = 0#4 := by decide
    have ha : fieldX (packXYN f x y n &&& 0xF00F) =
        (BitVec.extractLsb' 8 4 (packXYN f x y n) &&& BitVec.extractLsb' 8 4 (0xF00F : Word)).toFin :=
      congrArg BitVec.toFin (BitVec.extractLsb'_and ..)
    rw [ha, hm, BitVec.and_zero]
    rfl
  have hy : fieldY (packXYN f x y n &&& 0xF00F) = 0 := by
    have hm : BitVec.extractLsb' 4 4 (0xF00F : Word) = 0#4 := by decide
    have ha : fieldY (packXYN f x y n &&& 0xF00F) =
        (BitVec.extractLsb' 4 4 (packXYN f x y n) &&& BitVec.extractLsb' 4 4 (0xF00F : Word)).toFin :=
      congrArg BitVec.toFin (BitVec.extractLsb'_and ..)
    rw [ha, hm, BitVec.and_zero]
    rfl
  have hf : fieldF 0xF00F = BitVec.allOnes 4 := by decide
  have hn : fieldN 0xF00F = BitVec.allOnes 4 := by decide
  rw [hx, hy, fieldF_and, fieldN_and, hf, hn, BitVec.and_allOnes, BitVec.and_allOnes, fieldF_packXYN,
    fieldN_packXYN]

end Sys2Proof

namespace Sys2Proof.Laws.EncodeInRow

set_option Elab.async false

/-- The encoder's word has the pattern of the instruction's row under the row's mask. -/
def Statement (i : Instr) : Prop := encode i &&& i.row.mask = i.row.pattern

theorem cls : Statement .cls := by unfold Statement; decide

theorem ret : Statement .ret := by unfold Statement; decide

theorem jp (nnn : BitVec 12) : Statement (.jp nnn) := packNNN_mask _ nnn

theorem call (nnn : BitVec 12) : Statement (.call nnn) := packNNN_mask _ nnn

theorem seImm (x : RegIdx) (nn : Byte) : Statement (.seImm x nn) := by
  unfold Statement; rw [encode, packXNN_eq]; exact packNNN_mask _ _

theorem sneImm (x : RegIdx) (nn : Byte) : Statement (.sneImm x nn) := by
  unfold Statement; rw [encode, packXNN_eq]; exact packNNN_mask _ _

theorem seReg (x : RegIdx) (y : RegIdx) : Statement (.seReg x y) := packXYN_mask _ x y _

theorem ldImm (x : RegIdx) (nn : Byte) : Statement (.ldImm x nn) := by
  unfold Statement; rw [encode, packXNN_eq]; exact packNNN_mask _ _

theorem addImm (x : RegIdx) (nn : Byte) : Statement (.addImm x nn) := by
  unfold Statement; rw [encode, packXNN_eq]; exact packNNN_mask _ _

theorem ldReg (x : RegIdx) (y : RegIdx) : Statement (.ldReg x y) := packXYN_mask _ x y _

theorem orReg (x : RegIdx) (y : RegIdx) : Statement (.orReg x y) := packXYN_mask _ x y _

theorem andReg (x : RegIdx) (y : RegIdx) : Statement (.andReg x y) := packXYN_mask _ x y _

theorem xorReg (x : RegIdx) (y : RegIdx) : Statement (.xorReg x y) := packXYN_mask _ x y _

theorem addReg (x : RegIdx) (y : RegIdx) : Statement (.addReg x y) := packXYN_mask _ x y _

theorem subReg (x : RegIdx) (y : RegIdx) : Statement (.subReg x y) := packXYN_mask _ x y _

theorem shr (x : RegIdx) (y : RegIdx) : Statement (.shr x y) := packXYN_mask _ x y _

theorem subnReg (x : RegIdx) (y : RegIdx) : Statement (.subnReg x y) := packXYN_mask _ x y _

theorem shl (x : RegIdx) (y : RegIdx) : Statement (.shl x y) := packXYN_mask _ x y _

theorem sneReg (x : RegIdx) (y : RegIdx) : Statement (.sneReg x y) := packXYN_mask _ x y _

theorem ldIndex (nnn : BitVec 12) : Statement (.ldIndex nnn) := packNNN_mask _ nnn

theorem jpOffset (nnn : BitVec 12) : Statement (.jpOffset nnn) := packNNN_mask _ nnn

theorem rnd (x : RegIdx) (nn : Byte) : Statement (.rnd x nn) := by
  unfold Statement; rw [encode, packXNN_eq]; exact packNNN_mask _ _

theorem drw (x : RegIdx) (y : RegIdx) (n : Fin 16) : Statement (.drw x y n) := by
  unfold Statement; rw [encode, packXYN_eq]; exact packNNN_mask _ _

theorem skp (x : RegIdx) : Statement (.skp x) := packXNN_mask _ x _

theorem sknp (x : RegIdx) : Statement (.sknp x) := packXNN_mask _ x _

theorem ldFromDelay (x : RegIdx) : Statement (.ldFromDelay x) := packXNN_mask _ x _

theorem ldKey (x : RegIdx) : Statement (.ldKey x) := packXNN_mask _ x _

theorem ldDelay (x : RegIdx) : Statement (.ldDelay x) := packXNN_mask _ x _

theorem ldSound (x : RegIdx) : Statement (.ldSound x) := packXNN_mask _ x _

theorem addIndex (x : RegIdx) : Statement (.addIndex x) := packXNN_mask _ x _

theorem ldGlyph (x : RegIdx) : Statement (.ldGlyph x) := packXNN_mask _ x _

theorem storeBcd (x : RegIdx) : Statement (.storeBcd x) := packXNN_mask _ x _

theorem storeRegs (x : RegIdx) : Statement (.storeRegs x) := packXNN_mask _ x _

theorem loadRegs (x : RegIdx) : Statement (.loadRegs x) := packXNN_mask _ x _

end Sys2Proof.Laws.EncodeInRow
end

