-- ==== Sys2Proof/Laws/Step.lean ====
section
/-! SUPPORT. What a step can do, said once (30_encoding.md R83). -/

namespace Sys2Proof.Machine

-- One theorem at a time: each waiting one holds a thread of its own.
set_option Elab.async false

/-- A faulted machine's step (60_exceptions.md R242). -/
theorem step_faulted {s : State} {r : FaultRecord} (h : s.fault = some r) : step s = .next s := by
  simp [step, h]

/-- A step whose fetch raises. -/
theorem step_fetch_error {s : State} {r : Raised} (h : s.fault = none) (hf : s.fetch = .error r) :
    step s = .next (s.enterFault r none) := by simp [step, h, hf]

/-- A step whose word is no instruction. -/
theorem step_decode_error {s : State} {w : Word} {e : DecodeError} (h : s.fault = none) (hf : s.fetch = .ok w)
    (hd : decodeWord w = .error e) : step s = .next (s.enterFault (decodeRaises w) (some w)) := by
  simp [step, h, hf, hd]

/-- A step that executes an instruction. -/
theorem step_execute {s : State} {w : Word} {i : Instr} (h : s.fault = none) (hf : s.fetch = .ok w)
    (hd : decodeWord w = .ok i) : step s = s.finishResult (exec i (s.begin w)) := by
  simp [step, h, hf, hd]

/-- The four cases of a step. -/
theorem step_cases (s : State) :
    (∃ r, s.fault = some r ∧ step s = .next s) ∨
    (∃ r, s.fault = none ∧ s.fetch = .error r ∧ step s = .next (s.enterFault r none)) ∨
    (∃ w e, s.fault = none ∧ s.fetch = .ok w ∧ decodeWord w = .error e ∧
      step s = .next (s.enterFault (decodeRaises w) (some w))) ∨
    (∃ w i, s.fault = none ∧ s.fetch = .ok w ∧ decodeWord w = .ok i ∧
      step s = s.finishResult (exec i (s.begin w))) := by
  cases h : s.fault with
  | some r => exact .inl ⟨r, rfl, step_faulted h⟩
  | none =>
    cases hf : s.fetch with
    | error r => exact .inr (.inl ⟨r, rfl, rfl, step_fetch_error h hf⟩)
    | ok w =>
      cases hd : decodeWord w with
      | error e => exact .inr (.inr (.inl ⟨w, e, rfl, rfl, hd, step_decode_error h hf hd⟩))
      | ok i => exact .inr (.inr (.inr ⟨w, i, rfl, rfl, hd, step_execute h hf hd⟩))

end Sys2Proof.Machine
end

