-- ==== Sys2Proof/Tests/Slice0.lean ====
section
/-! SUPPORT. Tests: the word checks, decoding, one step of each instruction, and witnesses of the statements'
hypotheses. Expected results are those of 95_test_vectors.md, or worked by hand from the rule named. -/

namespace Sys2Proof.Tests

open Sys2Proof.Machine

-- One theorem at a time: each waiting one holds a thread of its own.
set_option Elab.async false

/-! ### The word checks refuse each ill-formed word (30_encoding.md R85 to R87, 95_test_vectors.md 2.1) -/

theorem test_illegal_family_0 : legalWord 0x0123 = false ∧ legalWord 0x01E0 = false ∧ legalWord 0x0000 = false := by decide
theorem test_illegal_family_5 : legalWord 0x5001 = false := by decide
theorem test_illegal_family_8 : legalWord 0x8128 = false := by decide
theorem test_illegal_family_9 : legalWord 0x9121 = false := by decide
theorem test_illegal_family_E : legalWord 0xE1A2 = false := by decide
theorem test_illegal_family_F : legalWord 0xF1FF = false := by decide

/-! ### One word of each row, written out from opcode_table.json's encoding column -/

theorem test_decode_cls : decodeWord 0b0000000011100000 = .ok .cls := by decide
theorem test_decode_ret : decodeWord 0b0000000011101110 = .ok .ret := by decide
theorem test_decode_jp : decodeWord 0b0001001000110100 = .ok (.jp 0x234) := by decide
theorem test_decode_call : decodeWord 0b0010001100000001 = .ok (.call 0x301) := by decide
theorem test_decode_seImm : decodeWord 0b0011001101000010 = .ok (.seImm 3 0x42) := by decide
theorem test_decode_sneImm : decodeWord 0b0100001101000011 = .ok (.sneImm 3 0x43) := by decide
theorem test_decode_seReg : decodeWord 0b0101000100100000 = .ok (.seReg 1 2) := by decide
theorem test_decode_ldImm : decodeWord 0b0110101000101011 = .ok (.ldImm 10 0x2B) := by decide
theorem test_decode_addImm : decodeWord 0b0111111100000010 = .ok (.addImm 15 0x02) := by decide
theorem test_decode_ldReg : decodeWord 0b1000000100100000 = .ok (.ldReg 1 2) := by decide
theorem test_decode_orReg : decodeWord 0b1000000100100001 = .ok (.orReg 1 2) := by decide
theorem test_decode_andReg : decodeWord 0b1000000100100010 = .ok (.andReg 1 2) := by decide
theorem test_decode_xorReg : decodeWord 0b1000000100100011 = .ok (.xorReg 1 2) := by decide
theorem test_decode_addReg : decodeWord 0b1000000100100100 = .ok (.addReg 1 2) := by decide
theorem test_decode_subReg : decodeWord 0b1000000100100101 = .ok (.subReg 1 2) := by decide
theorem test_decode_shr : decodeWord 0b1000000100100110 = .ok (.shr 1 2) := by decide
theorem test_decode_subnReg : decodeWord 0b1000000100100111 = .ok (.subnReg 1 2) := by decide
theorem test_decode_shl : decodeWord 0b1000000100101110 = .ok (.shl 1 2) := by decide
theorem test_decode_sneReg : decodeWord 0b1001000100100000 = .ok (.sneReg 1 2) := by decide
theorem test_decode_ldIndex : decodeWord 0b1010001011110000 = .ok (.ldIndex 0x2F0) := by decide
theorem test_decode_jpOffset : decodeWord 0b1011001100010010 = .ok (.jpOffset 0x312) := by decide
theorem test_decode_rnd : decodeWord 0b1100001100001111 = .ok (.rnd 3 0x0F) := by decide
theorem test_decode_drw : decodeWord 0b1101101000010101 = .ok (.drw 10 1 5) := by decide
theorem test_decode_skp : decodeWord 0b1110010110011110 = .ok (.skp 5) := by decide
theorem test_decode_sknp : decodeWord 0b1110010110100001 = .ok (.sknp 5) := by decide
theorem test_decode_ldFromDelay : decodeWord 0b1111001100000111 = .ok (.ldFromDelay 3) := by decide
theorem test_decode_ldKey : decodeWord 0b1111010100001010 = .ok (.ldKey 5) := by decide
theorem test_decode_ldDelay : decodeWord 0b1111001000010101 = .ok (.ldDelay 2) := by decide
theorem test_decode_ldSound : decodeWord 0b1111001000011000 = .ok (.ldSound 2) := by decide
theorem test_decode_addIndex : decodeWord 0b1111111100011110 = .ok (.addIndex 15) := by decide
theorem test_decode_ldGlyph : decodeWord 0b1111001000101001 = .ok (.ldGlyph 2) := by decide
theorem test_decode_storeBcd : decodeWord 0b1111000100110011 = .ok (.storeBcd 1) := by decide
theorem test_decode_storeRegs : decodeWord 0b1111001001010101 = .ok (.storeRegs 2) := by decide
theorem test_decode_loadRegs : decodeWord 0b1111001001100101 = .ok (.loadRegs 2) := by decide

/-- Bytes decode high byte first (30_encoding.md R80). -/
theorem test_decode_bytes : decodeBytes [0x81, 0x24, 0x77] = .ok (.addReg 1 2, [0x77]) := by decide

/-! ### Small states -/

/-- The reset state with some registers set. -/
def withRegs : List (RegIdx × Byte) → State
  | [] => State.reset
  | (i, b) :: rs => (withRegs rs).setV i b

/-- The same with the three quirks set. -/
def quirky (rs : List (RegIdx × Byte)) : State := { withRegs rs with cfgIn := ⟨true, true, true⟩ }

/-- The other value of each parameter. -/
def otherParams (s : State) : State := { s with params := ⟨.external, false, standardFont⟩ }

/-- Bytes stored at an address. -/
def withBytes (s : State) (a : Nat) (bs : List Byte) : State :=
  { s with mem := s.mem.writeList s.params.font a bs }

/-- The keypad port with the listed keys down. -/
def keysDown (s : State) (ks : List Nat) : State := { s with keypadIn := Vector.ofFn fun i => ks.contains i.val }

/-- The state after one step. -/
def stepped (s : State) : State :=
  match step s with
  | .next t => t
  | .fault _ => s
  | .refused _ => s

/-- The state after one step that runs the word `w`. -/
def after (s : State) (w : Nat) : State := stepped (s.withFetchWord 16 w)

/-- A step's end by what it records: nothing, or code and detail. -/
def recorded (t : State) : Option (Nat × Nat) := t.fault.map fun r => (r.kind.code, r.detail)

/-! ### Families 0x0 to 0x7, 0x9 (95_test_vectors.md 2.2, E1) -/

def litCorner : State := { State.reset with display := Display.flip Display.dark 0 0 }

theorem test_cls : litCorner.pixel 0 0 = true ∧ (after litCorner 0x00E0).pixel 0 0 = false := by decide +kernel

theorem test_ret : (after { State.reset with sp := 1, stack := State.reset.stack.set 0 0x206 } 0x00EE).pc = 0x206 ∧
    (after { State.reset with sp := 1, stack := State.reset.stack.set 0 0x206 } 0x00EE).sp = 0 := by decide +kernel
theorem test_ret_empty : (after State.reset 0x00EE).pc = 0x202 ∧ recorded (after State.reset 0x00EE) = none := by
  decide +kernel

theorem test_jp : (after State.reset 0x1234).pc = 0x234 := by decide +kernel
theorem test_call : (after State.reset 0x2300).pc = 0x300 ∧ (after State.reset 0x2300).sp = 1 ∧
    (after State.reset 0x2300).stack[0] = 0x202 := by decide +kernel
theorem test_call_overflow : recorded (after { State.reset with sp := 16 } 0x2300) = some (3, 0x300) ∧
    (after { State.reset with sp := 16 } 0x2300).pc = 0x200 := by decide +kernel

theorem test_seImm : (after (withRegs [(3, 0x42)]) 0x3342).pc = 0x204 ∧
    (after (withRegs [(3, 0x42)]) 0x3343).pc = 0x202 := by decide +kernel
theorem test_sneImm : (after (withRegs [(3, 0x42)]) 0x4343).pc = 0x204 ∧
    (after (withRegs [(3, 0x42)]) 0x4342).pc = 0x202 := by decide +kernel
theorem test_seReg : (after (withRegs [(1, 7), (2, 7)]) 0x5120).pc = 0x204 ∧
    (after (withRegs [(1, 7), (2, 8)]) 0x5120).pc = 0x202 := by decide +kernel
theorem test_sneReg : (after (withRegs [(1, 7), (2, 8)]) 0x9120).pc = 0x204 ∧
    (after (withRegs [(1, 7)]) 0x9110).pc = 0x202 := by decide +kernel
theorem test_ldImm : (after State.reset 0x6A2B).getV 10 = 0x2B := by decide +kernel
theorem test_addImm : (after (withRegs [(0, 0xFF)]) 0x7002).getV 0 = 0x01 ∧
    (after (withRegs [(0, 0xFF)]) 0x7002).getV 15 = 0 := by decide +kernel

/-! ### Family 0x8 (95_test_vectors.md 2.3, E2 to E4) -/

theorem test_ldReg : (after (withRegs [(2, 0x5A)]) 0x8120).getV 1 = 0x5A := by decide +kernel
theorem test_orReg : (after (withRegs [(1, 0xF0), (2, 0x0F), (15, 7)]) 0x8121).getV 1 = 0xFF ∧
    (after (withRegs [(1, 0xF0), (2, 0x0F), (15, 7)]) 0x8121).getV 15 = 7 := by decide +kernel
theorem test_andReg : (after (withRegs [(1, 0xF3), (2, 0x3F)]) 0x8122).getV 1 = 0x33 := by decide +kernel
theorem test_xorReg : (after (withRegs [(1, 0x5A)]) 0x8113).getV 1 = 0x00 := by decide +kernel
theorem test_addReg : (after (withRegs [(1, 0xFF), (2, 0x02)]) 0x8124).getV 1 = 0x01 ∧
    (after (withRegs [(1, 0xFF), (2, 0x02)]) 0x8124).getV 15 = 1 := by decide +kernel
theorem test_addReg_into_VF : (after (withRegs [(15, 0xFF), (1, 0x01)]) 0x8F14).getV 15 = 0x01 ∧
    (after (otherParams (withRegs [(15, 0xFF), (1, 0x01)])) 0x8F14).getV 15 = 0x00 := by decide +kernel
theorem test_subReg : (after (withRegs [(1, 0x05), (2, 0x0A)]) 0x8125).getV 1 = 0xFB ∧
    (after (withRegs [(1, 0x05), (2, 0x0A)]) 0x8125).getV 15 = 0 := by decide +kernel
theorem test_subReg_into_VF : (after (withRegs [(15, 0x10), (1, 0x20)]) 0x8F15).getV 15 = 0x00 ∧
    (after (otherParams (withRegs [(15, 0x10), (1, 0x20)])) 0x8F15).getV 15 = 0xF0 := by decide +kernel
theorem test_shr : (after (withRegs [(1, 0x03)]) 0x8106).getV 1 = 0x01 ∧
    (after (withRegs [(1, 0x03)]) 0x8106).getV 15 = 1 := by decide +kernel
theorem test_shr_quirk : (after (quirky [(1, 0x04), (2, 0x03)]) 0x8126).getV 1 = 0x01 ∧
    (after (quirky [(1, 0x04), (2, 0x03)]) 0x8126).getV 15 = 1 := by decide +kernel
theorem test_subnReg : (after (withRegs [(1, 0x0A), (2, 0x05)]) 0x8127).getV 1 = 0xFB ∧
    (after (withRegs [(1, 0x0A), (2, 0x05)]) 0x8127).getV 15 = 0 := by decide +kernel
theorem test_subnReg_equal : (after (withRegs [(1, 0x33)]) 0x8117).getV 1 = 0 ∧
    (after (withRegs [(1, 0x33)]) 0x8117).getV 15 = 1 := by decide +kernel
theorem test_shl : (after (withRegs [(1, 0x7F)]) 0x810E).getV 1 = 0xFE ∧
    (after (withRegs [(1, 0x7F)]) 0x810E).getV 15 = 0 := by decide +kernel
theorem test_shl_quirk : (after (quirky [(1, 0x04), (2, 0x81)]) 0x812E).getV 1 = 0x02 ∧
    (after (quirky [(1, 0x04), (2, 0x81)]) 0x812E).getV 15 = 1 := by decide +kernel

/-! ### Families 0xA, 0xB, 0xC (95_test_vectors.md 2.4) -/

theorem test_ldIndex : (after State.reset 0xA2F0).index = 0x2F0 := by decide +kernel
theorem test_jpOffset : (after (withRegs [(0, 0xFF)]) 0xBFFF).pc = 0x10FE := by decide +kernel
theorem test_jpOffset_quirk : (after (quirky [(3, 0x04), (0, 0x10)]) 0xB312).pc = 0x316 := by decide +kernel
theorem test_rnd : (after { State.reset with randIn := 0xA7 } 0xC30F).getV 3 = 0x07 := by decide +kernel

/-! ### Family 0xD (95_test_vectors.md 2.5) -/

def drawReady (rs : List (RegIdx × Byte)) (i : Word) (b : Byte) : State :=
  { withBytes (withRegs rs) 0x300 [b] with index := i }

theorem test_drw_right_edge :
    (after (drawReady [(0, 62)] 0x300 0xC0) 0xD011).pixel 62 0 = true ∧
    (after (drawReady [(0, 62)] 0x300 0xC0) 0xD011).pixel 63 0 = true ∧
    (after (drawReady [(0, 62)] 0x300 0xC0) 0xD011).pixel 0 0 = false ∧
    (after (drawReady [(0, 62)] 0x300 0xC0) 0xD011).getV 15 = 0 := by decide +kernel
theorem test_drw_collision :
    (after { drawReady [] 0x300 0x80 with display := Display.flip Display.dark 0 0 } 0xD011).pixel 0 0 = false ∧
    (after { drawReady [] 0x300 0x80 with display := Display.flip Display.dark 0 0 } 0xD011).getV 15 = 1 := by
  decide +kernel
theorem test_drw_row_past_bottom_is_not_read :
    recorded (after (drawReady [(1, 31)] 0xFFF 0) 0xD012) = none ∧
    recorded (after (drawReady [(1, 30), (15, 9)] 0xFFF 0) 0xD012) = some (4, 0x1000) ∧
    (after (drawReady [(1, 30), (15, 9)] 0xFFF 0) 0xD012).getV 15 = 9 := by decide +kernel

/-! ### Family 0xE (95_test_vectors.md 2.6) -/

theorem test_skp : (after (keysDown (withRegs [(5, 0x0A)]) [10]) 0xE59E).pc = 0x204 ∧
    (after (withRegs [(5, 0x0A)]) 0xE59E).pc = 0x202 := by decide +kernel
theorem test_skp_range : recorded (after (withRegs [(5, 0x10)]) 0xE59E) = some (6, 0x10) ∧
    (after (withRegs [(5, 0x10)]) 0xE59E).pc = 0x200 := by decide +kernel
theorem test_sknp : (after (withRegs [(5, 0x0A)]) 0xE5A1).pc = 0x204 ∧
    (after (keysDown (withRegs [(5, 0x0A)]) [10]) 0xE5A1).pc = 0x202 := by decide +kernel

/-! ### Family 0xF (95_test_vectors.md 2.7, E8) -/

theorem test_ldFromDelay : (after { State.reset with delay := 5 } 0xF307).getV 3 = 5 ∧
    (after { State.reset with delay := 5 } 0xF307).delay = 4 := by decide +kernel
theorem test_ldKey : (after (keysDown State.reset [3, 9]) 0xF50A).getV 5 = 3 ∧
    (after (keysDown State.reset [3, 9]) 0xF50A).pc = 0x202 := by decide +kernel
theorem test_ldKey_waits : (after { withRegs [(5, 8)] with delay := 2 } 0xF50A).pc = 0x200 ∧
    (after { withRegs [(5, 8)] with delay := 2 } 0xF50A).getV 5 = 8 ∧
    (after { withRegs [(5, 8)] with delay := 2 } 0xF50A).delay = 1 := by decide +kernel
theorem test_ldDelay : (after (withRegs [(0, 3)]) 0xF015).delay = 2 ∧
    (after (otherParams (withRegs [(0, 3)])) 0xF015).delay = 3 := by decide +kernel
theorem test_ldSound : (after (withRegs [(0, 1)]) 0xF018).sound = 0 ∧
    (after (otherParams (withRegs [(0, 1)])) 0xF018).sound = 1 := by decide +kernel
theorem test_addIndex : (after { withRegs [(0, 1)] with index := 0x0FFF } 0xF01E).index = 0x1000 ∧
    (after { withRegs [(0, 1)] with index := 0x0FFF } 0xF01E).getV 15 = 1 := by decide +kernel
theorem test_addIndex_wraps : (after { withRegs [(0, 1)] with index := 0xFFFF } 0xF01E).index = 0x0000 ∧
    (after { withRegs [(0, 1)] with index := 0xFFFF } 0xF01E).getV 15 = 0 := by decide +kernel
theorem test_ldGlyph : (after (withRegs [(2, 15)]) 0xF229).index = 0x04B := by decide +kernel
theorem test_ldGlyph_range : recorded (after (withRegs [(2, 16)]) 0xF229) = some (7, 16) := by decide +kernel
theorem test_storeBcd : (after { withRegs [(0, 205)] with index := 0x300 } 0xF033).byteAt 0x300 = 2 ∧
    (after { withRegs [(0, 205)] with index := 0x300 } 0xF033).byteAt 0x301 = 0 ∧
    (after { withRegs [(0, 205)] with index := 0x300 } 0xF033).byteAt 0x302 = 5 := by decide +kernel
theorem test_storeBcd_faults :
    recorded (after { withRegs [(0, 255)] with index := 0xFFE } 0xF033) = some (4, 0x1000) ∧
    (after { withRegs [(0, 255)] with index := 0xFFE } 0xF033).byteAt 0xFFE = 0 ∧
    recorded (after { withRegs [(0, 255)] with index := 0x04F } 0xF033) = some (5, 0x04F) := by decide +kernel
theorem test_storeRegs :
    (after { withRegs [(0, 1), (1, 2), (2, 3)] with index := 0x300 } 0xF255).byteAt 0x302 = 3 ∧
    (after { withRegs [(0, 1), (1, 2), (2, 3)] with index := 0x300 } 0xF255).index = 0x300 := by decide +kernel
theorem test_storeRegs_quirk :
    (after { quirky [(0, 1), (1, 2), (2, 3)] with index := 0x300 } 0xF255).byteAt 0x301 = 2 ∧
    (after { quirky [(0, 1), (1, 2), (2, 3)] with index := 0x300 } 0xF255).index = 0x303 := by decide +kernel
theorem test_loadRegs : (after (drawReady [] 0x300 0x77) 0xF065).getV 0 = 0x77 ∧
    (after State.reset 0xF065).getV 0 = 0xF0 := by decide +kernel
theorem test_loadRegs_past_memory : recorded (after { withRegs [(0, 9)] with index := 0xFFF } 0xF165) = some (4, 0x1000) ∧
    (after { withRegs [(0, 9)] with index := 0xFFF } 0xF165).getV 0 = 9 := by decide +kernel

/-! ### Fetch, decode and tick (95_test_vectors.md 2.1, 2.8, E9) -/

theorem test_empty_program : recorded (stepped State.reset) = some (2, 0) ∧ (stepped State.reset).pc = 0x200 := by
  decide +kernel
theorem test_unknown_opcode : (after { State.reset with delay := 5 } 0x5001).fault =
      some ⟨.unknownOpcode, 0x200, some 0x5001, 0x5001⟩ ∧
    (after { State.reset with delay := 5 } 0x5001).delay = 5 := by decide +kernel
theorem test_fetch_last_word : (after { State.reset with pc := 0xFFE } 0x6012).getV 0 = 0x12 ∧
    (after { State.reset with pc := 0xFFE } 0x6012).pc = 0x1000 := by decide +kernel
theorem test_fetch_past_memory : State.fetch { State.reset with pc := 0xFFF } = .error ⟨.outOfBoundsFetch, 0xFFF⟩ := by
  decide +kernel
theorem test_fetch_odd_pc : (after { State.reset with pc := 0x201 } 0x6107).getV 1 = 7 ∧
    (after { State.reset with pc := 0x201 } 0x6107).pc = 0x203 := by decide +kernel
theorem test_tick : (after { State.reset with delay := 1, sound := 200 } 0x6000).delay = 0 ∧
    (after { State.reset with delay := 1, sound := 200 } 0x6000).sound = 199 := by decide +kernel
theorem test_tick_request : (State.serve (otherParams { State.reset with delay := 5 }) .tick).2.delay = 4 := by
  decide +kernel

/-! ### Witnesses: states and operands that meet the statements' hypotheses -/

theorem witness_EncodeAfterDecodeIsIdentity : decodeWord 0xDF5A = .ok (.drw 15 5 10) := by decide
theorem witness_DecodeAcceptsExactlyTheTable : legalWord 0x00EE = true ∧ legalWord 0xF065 = true ∧
    legalWord 0x00EF = false ∧ legalWord 0xF066 = false := by decide
theorem witness_TableRowsAreDisjoint : ∃ (w : Word) (r q : Row), r ∈ opcodeTable ∧ q ∈ opcodeTable ∧
    r.accepts w = true ∧ q.accepts w = true :=
  ⟨0x8124, (Instr.addReg 1 2).row, (Instr.addReg 1 2).row, by decide, by decide, by decide, by decide⟩
theorem witness_FetchAndProgramFileAreBigEndian :
    (∃ s : State, s.pc.toNat + 1 < 4096 ∧ s.pc = 0xFFE) ∧
    (∃ (s : State) (bs : List Byte) (hi lo : Byte), Memory.wf s.params.font s.mem ∧ bs.length ≤ 3584 ∧
      bs[2 * 1791]? = some hi ∧ bs[2 * 1791 + 1]? = some lo) :=
  ⟨⟨{ State.reset with pc := 0xFFE }, by decide, rfl⟩,
    ⟨State.reset, List.replicate 3584 0xAB, 0xAB, 0xAB, by decide, by decide +kernel, by decide +kernel, by decide +kernel⟩⟩

/-- A state with the word `w` at `pc`. -/
def ready (s : State) (w : Nat) : State := s.withFetchWord 16 w

theorem witness_StepRunsTheDecodedInstruction_perStep : ∃ (s t : State) (w : Word) (i : Instr),
    s.fault = none ∧ s.pc.toNat + 1 < 4096 ∧
    w = wordOfBytes (s.byteAt s.pc.toNat) (s.byteAt (s.pc.toNat + 1)) ∧ decodeWord w = .ok i ∧
    exec i { s with keypad := s.keypadIn, opcode := w, pc := s.pc + 2 } = .next t ∧ t.fault = none ∧
    s.params.timerTickSource = .perStep :=
  ⟨ready { State.reset with pc := 0xFFE } 0x6012, _, 0x6012, .ldImm 0 0x12,
    rfl, by decide +kernel, by decide +kernel, by decide, rfl, rfl, rfl⟩
theorem witness_StepRunsTheDecodedInstruction_external : ∃ (s t : State) (w : Word) (i : Instr),
    s.fault = none ∧ s.pc.toNat + 1 < 4096 ∧
    w = wordOfBytes (s.byteAt s.pc.toNat) (s.byteAt (s.pc.toNat + 1)) ∧ decodeWord w = .ok i ∧
    exec i { s with keypad := s.keypadIn, opcode := w, pc := s.pc + 2 } = .next t ∧ t.fault = none ∧
    s.params.timerTickSource = .external :=
  ⟨ready (otherParams State.reset) 0x6012, _, 0x6012, .ldImm 0 0x12,
    rfl, by decide +kernel, by decide +kernel, by decide, rfl, rfl, rfl⟩
theorem witness_StepRunsTheDecodedInstruction_raising : ∃ (s t : State) (w : Word) (i : Instr) (r : FaultRecord),
    s.fault = none ∧ s.pc.toNat + 1 < 4096 ∧
    w = wordOfBytes (s.byteAt s.pc.toNat) (s.byteAt (s.pc.toNat + 1)) ∧ decodeWord w = .ok i ∧
    exec i { s with keypad := s.keypadIn, opcode := w, pc := s.pc + 2 } = .next t ∧ t.fault = some r :=
  ⟨ready { State.reset with sp := 16 } 0x2300, _, 0x2300, .call 0x300, _,
    rfl, by decide +kernel, by decide +kernel, by decide, rfl, rfl⟩
theorem witness_FetchAndDecodeFaultsAreRecorded :
    (∃ s : State, s.fault = none ∧ 4096 ≤ s.pc.toNat + 1 ∧ s.pc = 0xFFF) ∧
    (∃ (s : State) (w : Word), s.fault = none ∧ s.pc.toNat + 1 < 4096 ∧
      w = wordOfBytes (s.byteAt s.pc.toNat) (s.byteAt (s.pc.toNat + 1)) ∧ legalWord w = false) :=
  ⟨⟨{ State.reset with pc := 0xFFF }, rfl, by decide, rfl⟩, ⟨State.reset, 0x0000, rfl, by decide, by decide, by decide⟩⟩
theorem witness_FaultingStepChangesOnlyTheRecord : ∃ (s t : State) (r : FaultRecord),
    s.fault = none ∧ step s = .next t ∧ t.fault = some r :=
  ⟨{ State.reset with pc := 0xFFF }, _, _, rfl, rfl, rfl⟩

/-- A faulted state. -/
def faultedState : State := { State.reset with fault := some ⟨.unknownOpcode, 0x200, some 0, 0⟩ }

theorem witness_FaultedMachineIsQuiescent : ∃ (s : State) (r : FaultRecord) (bs : List Byte) (q : Request),
    s.fault = some r ∧ q ≠ .init ∧ q = .setConfig ⟨true, true, true⟩ ∧ Memory.wf s.params.font s.mem ∧
    bs.length ≤ 3584 ∧ bs.length = 3584 :=
  ⟨faultedState, _, List.replicate 3584 0xAB, _, rfl, by decide, rfl, by decide, by decide +kernel, by decide +kernel⟩
theorem witness_FaultsDoNotDependOnTheInputs (k : Keypad) (q : Quirks) (b : Byte) (n : Nat) :
    ∃ s t t' : State, step s = .next t ∧
      step { s with keypadIn := k, cfgIn := q, randIn := b, draws := n } = .next t' :=
  ⟨faultedState, _, _, rfl, rfl⟩
theorem witness_InstructionsRaiseExactlyAsTabled :
    expectedFault { State.reset with sp := 16 } (.call 0x300) = some ⟨.stackOverflow, 0x300⟩ ∧
    expectedFault { State.reset with sp := 15 } (.call 0x300) = none ∧
    expectedFault (withRegs [(5, 16)]) (.skp 5) = some ⟨.keyIndexRange, 16⟩ ∧
    expectedFault (withRegs [(5, 15)]) (.ldGlyph 5) = none ∧
    expectedFault { State.reset with index := 0x04F } (.storeRegs 0) = some ⟨.protectedWrite, 0x04F⟩ ∧
    expectedFault { State.reset with index := 0x050 } (.storeRegs 0) = none ∧
    expectedFault { State.reset with index := 0xFFD } (.storeBcd 0) = none ∧
    expectedFault { State.reset with index := 0xFFE } (.storeBcd 0) = some ⟨.outOfBoundsAccess, 0x1000⟩ ∧
    expectedFault { State.reset with index := 0xFFFF } (.loadRegs 0) = some ⟨.outOfBoundsAccess, 0xFFFF⟩ ∧
    expectedFault { State.reset with index := 0xFFF } (.drw 0 0 1) = none ∧
    expectedFault { State.reset with index := 0xFFF } (.drw 0 0 2) = some ⟨.outOfBoundsAccess, 0x1000⟩ := by
  decide +kernel
theorem witness_ReturnFromSubroutine : (∃ s : State, s.sp.val = 0) ∧ (∃ s t : State, 0 < s.sp.val ∧
    exec .ret s = .next t ∧ t.pc = 0x1000) :=
  ⟨⟨State.reset, rfl⟩, ⟨{ State.reset with sp := 16, stack := Vector.replicate 16 0x1000 }, _, by decide, rfl, rfl⟩⟩
theorem witness_CallPushesAndJumps : (∃ s : State, s.sp.val < 16 ∧ s.sp = 15) ∧ (∃ s : State, s.sp.val = 16) :=
  ⟨⟨{ State.reset with sp := 15 }, by decide, rfl⟩, ⟨{ State.reset with sp := 16 }, rfl⟩⟩
theorem witness_ReturnUndoesCall : ∃ s : State, s.sp.val < 16 ∧ s.sp = 15 :=
  ⟨{ State.reset with sp := 15 }, by decide, rfl⟩
theorem witness_CompareAndSkip_past_memory : ∃ t : State, t.pc = 0x1002 := ⟨{ State.reset with pc := 0x1002 }, rfl⟩
theorem witness_CompareAndSkip : fieldF 0x5001 = 5 ∧ fieldN 0x5001 ≠ 0 ∧ (0x512F : Word) &&& 0xF000 = 0x5000 ∧
    (0x3FFF : Word) &&& 0xF000 = 0x3000 ∧ (0x4FFF : Word) &&& 0xF000 = 0x4000 ∧
    (0x5FF0 : Word) &&& 0xF00F = 0x5000 ∧ (0x9FF0 : Word) &&& 0xF00F = 0x9000 := by decide
theorem witness_rows_of_the_stated_rules : (0x00E0 : Word) &&& 0xFFFF = 0x00E0 ∧
    (0x00EE : Word) &&& 0xFFFF = 0x00EE ∧ (0x1FFF : Word) &&& 0xF000 = 0x1000 ∧ (0x6FFF : Word) &&& 0xF000 = 0x6000 ∧
    (0x7FFF : Word) &&& 0xF000 = 0x7000 ∧ (0x8FF0 : Word) &&& 0xF00F = 0x8000 ∧ (0xAFFF : Word) &&& 0xF000 = 0xA000 ∧
    (0xFF18 : Word) &&& 0xF0FF = 0xF018 ∧ (0xFF0A : Word) &&& 0xF0FF = 0xF00A := by decide
theorem witness_ShiftsByOne : ∃ (x y : RegIdx) (s q : State) (a b : Byte),
    a = (if s.cfgIn.shiftQuirk then s.getV y else s.getV x) ∧ a = 0x04 ∧
    b = (if q.cfgIn.shiftQuirk then q.getV y else q.getV x) ∧ b = 0x81 :=
  ⟨1, 2, withRegs [(1, 0x04), (2, 0x81)], quirky [(1, 0x04), (2, 0x81)], 0x04, 0x81,
    by decide +kernel, rfl, by decide +kernel, rfl⟩
theorem witness_JumpWithOffset : ∃ (nnn : BitVec 12) (x : RegIdx), x.val = nnn.toNat / 256 ∧ nnn = 0xFFF :=
  ⟨0xFFF, 15, by decide, rfl⟩

theorem witness_DrawXorsTheSprite_reads : ∃ (x y : RegIdx) (n : Fin 16) (s : State) (x0 y0 : Nat),
    x0 = (s.getV x).toNat % 64 ∧ y0 = (s.getV y).toNat % 32 ∧ drawnRows y0 n.val ≠ 0 ∧
    s.dataAddress + drawnRows y0 n.val = 4096 :=
  ⟨0, 1, 2, drawReady [(0, 67), (1, 31)] 0xFFF 0, 3, 31, by decide +kernel, by decide +kernel, by decide, by decide⟩
theorem witness_DrawXorsTheSprite_no_rows : ∃ (x y : RegIdx) (n : Fin 16) (s : State) (x0 y0 : Nat),
    x0 = (s.getV x).toNat % 64 ∧ y0 = (s.getV y).toNat % 32 ∧ drawnRows y0 n.val = 0 ∧ 4096 < s.dataAddress :=
  ⟨0, 1, 0, drawReady [] 0xFFFF 0, 0, 0, by decide +kernel, by decide +kernel, by decide, by decide⟩
theorem witness_DrawXorsTheSprite_collision :
    State.pixel litCorner 0 0 = true ∧ State.spriteBit litCorner 0 0 5 0 0 = true := by decide +kernel
theorem witness_DrawXorsTheSprite_no_collision : ∀ px py, px < 64 → py < 32 →
    State.pixel State.reset px py = true → State.spriteBit State.reset 0 0 5 px py = false := by
  intro px py hx hy h
  simp [State.pixel, Display.pixel, State.reset, Display.dark, hx, hy] at h
theorem witness_DrawTwiceRestoresTheDisplay :
    State.spriteBit State.reset 63 31 1 63 31 = true ∧ drawnRows 31 1 = 1 ∧
    State.reset.dataAddress + drawnRows 31 1 ≤ 4096 ∧ State.pixel State.reset 63 31 = false := by decide +kernel

/-- The first draw darkens the one lit pixel, the second lights it again and reports no collision (44_draw.md R180's
pseudocode, worked by hand). -/
def litUnderSprite : State := { drawReady [] 0x300 0x80 with display := Display.flip Display.dark 0 0 }

theorem test_drw_twice_over_a_lit_pixel : (after litUnderSprite 0xD011).pixel 0 0 = false ∧
    (after { after litUnderSprite 0xD011 with pc := 0x200 } 0xD011).pixel 0 0 = true ∧
    (after { after litUnderSprite 0xD011 with pc := 0x200 } 0xD011).getV 15 = 0 := by decide +kernel
theorem witness_DrawTwiceRestoresTheDisplay_lit : State.spriteBit litUnderSprite 0 0 1 0 0 = true ∧
    State.pixel litUnderSprite 0 0 = true := by decide +kernel
theorem witness_KeySkips : ((withRegs [(5, 15)]).getV 5).toNat = (15 : Fin 16).val ∧
    15 < ((withRegs [(5, 16)]).getV 5).toNat := by decide +kernel
theorem witness_TimerInstructions : State.reset.params.timerTickSource = .perStep ∧
    (otherParams State.reset).params.timerTickSource = .external := by decide
theorem witness_WaitForKey : ∃ s q : State,
    (s.keypad[(15 : Fin 16).val] = true ∧ ∀ j : Fin 16, j < 15 → s.keypad[j.val] = false) ∧
    (∀ j : Fin 16, q.keypad[j.val] = false) ∧ (∀ j : Fin 16, q.keypadIn[j.val] = false) ∧ 2 ≤ q.pc.toNat :=
  ⟨{ State.reset with keypad := State.reset.keypad.set 15 true }, State.reset,
    by decide +kernel, by decide +kernel, by decide +kernel, by decide⟩
theorem witness_WaitForKey_waiting : ∃ (s : State) (w : Word), s.fault = none ∧ s.fetch = .ok w ∧
    decodeWord w = .ok (.ldKey 5) ∧ (∀ j : Fin 16, s.keypadIn[j.val] = false) ∧
    s.params.timerTickSource = .perStep :=
  ⟨ready State.reset 0xF50A, 0xF50A, rfl, rfl, by decide,
    show ∀ j : Fin 16, (Vector.replicate 16 false)[j.val] = false by decide, rfl⟩
theorem witness_WaitForKey_waiting_external : ∃ (s : State) (w : Word), s.fault = none ∧ s.fetch = .ok w ∧
    decodeWord w = .ok (.ldKey 5) ∧ (∀ j : Fin 16, s.keypadIn[j.val] = false) ∧
    s.params.timerTickSource = .external :=
  ⟨ready (otherParams State.reset) 0xF50A, 0xF50A, rfl, rfl, by decide,
    show ∀ j : Fin 16, (Vector.replicate 16 false)[j.val] = false by decide, rfl⟩
theorem witness_JumpToAddress : ∃ (s : State) (w : Word) (nnn : BitVec 12), s.fault = none ∧
    s.params.timerTickSource = .perStep ∧ s.fetch = .ok w ∧ decodeWord w = .ok (.jp nnn) ∧ nnn.toNat = s.pc.toNat :=
  ⟨ready { State.reset with pc := 0xFFE } 0x1FFE, 0x1FFE, 0xFFE, rfl, rfl, rfl, by decide, by decide⟩
theorem witness_GlyphAddress : (∃ s : State, (s.getV 2).toNat ≤ 15 ∧ s.Inv ∧ s.getV 2 = 15) ∧
    (∃ s : State, 15 < (s.getV 2).toNat) :=
  ⟨⟨withRegs [(2, 15)], by decide +kernel, by decide +kernel, by decide +kernel⟩, ⟨withRegs [(2, 16)], by decide +kernel⟩⟩
theorem witness_StoreDecimalDigits : ∃ s t : State,
    (Memory.wf s.params.font s.mem ∧ 0x50 ≤ s.dataAddress ∧ s.dataAddress + 3 ≤ 4096 ∧ s.index = 0x50) ∧
    (Memory.wf t.params.font t.mem ∧ 0x50 ≤ t.dataAddress ∧ t.dataAddress + 3 ≤ 4096 ∧ t.index = 0xFFD) :=
  ⟨{ State.reset with index := 0x50 }, { State.reset with index := 0xFFD }, by decide, by decide⟩
theorem witness_StoreRegisters : ∃ (x : RegIdx) (s t : State),
    (Memory.wf s.params.font s.mem ∧ 0x50 ≤ s.dataAddress ∧ s.dataAddress + x.val + 1 ≤ 4096 ∧
      s.index = 0x50 ∧ s.cfgIn.indexIncrementQuirk = false) ∧
    (Memory.wf t.params.font t.mem ∧ 0x50 ≤ t.dataAddress ∧ t.dataAddress + x.val + 1 ≤ 4096 ∧
      t.index = 0xFF0 ∧ t.cfgIn.indexIncrementQuirk = true) :=
  ⟨15, { State.reset with index := 0x50 }, { quirky [] with index := 0xFF0 }, by decide, by decide⟩
theorem witness_LoadRegisters : ∃ (x : RegIdx) (s t : State),
    (s.dataAddress + x.val + 1 ≤ 4096 ∧ s.index = 0) ∧
    (t.dataAddress + x.val + 1 ≤ 4096 ∧ t.index = 0xFF0 ∧ t.cfgIn.indexIncrementQuirk = true) :=
  ⟨15, State.reset, { quirky [] with index := 0xFF0 }, by decide, by decide⟩
theorem witness_StoredWordIsFetched : ∃ (x i j : RegIdx) (s : State) (a : Word), Memory.wf s.params.font s.mem ∧
    0x50 ≤ s.dataAddress ∧ s.dataAddress + x.val + 1 ≤ 4096 ∧ j ≤ x ∧ i.val + 1 = j.val ∧
    a.toNat = s.dataAddress + i.val :=
  ⟨15, 14, 15, { State.reset with index := 0xFF0 }, 0xFFE, by decide, by decide, by decide, by decide, by decide, by decide⟩

theorem witness_TimerTick : ∃ s t : State, s.params.timerTickSource = .perStep ∧ s.fault = none ∧ step s = .next t ∧
    t.fault = none := ⟨ready State.reset 0x1200, _, rfl, rfl, rfl, rfl⟩
theorem witness_ExternalTicks : ∃ s t : State, s.params.timerTickSource = .external ∧ s.fault = none ∧
    step s = .next t ∧ t.fault = none := ⟨ready (otherParams State.reset) 0x1200, _, rfl, rfl, rfl, rfl⟩
theorem witness_FontRegionIsNeverAltered : ∃ s t : State, s.Inv ∧ step s = .next t :=
  ⟨ready { State.reset with index := 0x50 } 0xFF55, _, by decide +kernel, rfl⟩
theorem witness_AccessMatrixWrites_screen_and_stack :
    (∃ s t : State, exec .cls s = .next t ∧ t.display ≠ s.display) ∧
    (∃ s t : State, exec (.call 0x300) s = .next t ∧ t.stack ≠ s.stack ∧ t.sp ≠ s.sp) ∧
    (∃ s t : State, exec (.ldIndex 0x300) s = .next t ∧ t.index ≠ s.index) :=
  ⟨⟨litCorner, _, rfl, by decide +kernel⟩, ⟨State.reset, _, rfl, by decide +kernel, by decide +kernel⟩,
    ⟨State.reset, _, rfl, by decide⟩⟩
theorem witness_AccessMatrixWrites_memory_and_timers :
    (∃ s t : State, exec (.storeBcd 0) s = .next t ∧ t.byteAt 0x302 ≠ s.byteAt 0x302) ∧
    (∃ s t : State, exec (.ldDelay 0) s = .next t ∧ t.delay ≠ s.delay) ∧
    (∃ s t : State, exec (.ldSound 0) s = .next t ∧ t.sound ≠ s.sound) ∧
    (∃ s t : State, exec (.rnd 0 0) s = .next t ∧ t.draws ≠ s.draws) :=
  ⟨⟨{ withRegs [(0, 5)] with index := 0x300 }, _, rfl, by decide +kernel⟩,
    ⟨withRegs [(0, 5)], _, rfl, by decide +kernel⟩, ⟨withRegs [(0, 5)], _, rfl, by decide +kernel⟩,
    ⟨State.reset, _, rfl, by decide⟩⟩
theorem witness_RegistersWrittenOnlyAsNamed : ∃ (i : Instr) (s t : State) (r : RegIdx), exec i s = .next t ∧
    r ∉ i.dests ∧ (r = vfIdx → i.writesFlag = false) ∧ r = vfIdx :=
  ⟨.orReg 1 2, State.reset, _, 15, rfl, by decide, by decide, rfl⟩
theorem witness_SoundAndLatchAreNeverRead : ∃ s t : State, s.fault = none ∧ step s = .next t :=
  ⟨ready State.reset 0xF018, _, rfl, rfl⟩
theorem witness_StaleStackEntriesAffectNothing : ∃ s s' t : State,
    SameButStale s s' ∧ s'.stack ≠ s.stack ∧ step s = .next t :=
  ⟨ready { State.reset with sp := 1 } 0x00EE,
    { ready { State.reset with sp := 1 } 0x00EE with stack := (State.reset.stack.set 1 0x206) }, _,
    ⟨rfl, by decide +kernel⟩, by decide +kernel, rfl⟩
theorem witness_StepKeepsTheInvariant : ∃ s t : State, s.Inv ∧ step s = .next t ∧ t.pc = 0x10FE :=
  ⟨ready (withRegs [(0, 0xFF)]) 0xBFFF, _, by decide +kernel, rfl, by decide +kernel⟩
theorem witness_EveryRunKeepsTheInvariant : State.Inv faultedState ∧ State.Inv State.reset := by decide +kernel
theorem witness_LoadProgramCopiesTheBytes : ∃ (s : State) (bs : List Byte), Memory.wf s.params.font s.mem ∧
    bs.length ≤ 3584 ∧ bs.length = 3584 := ⟨State.reset, List.replicate 3584 0xAB, by decide, by decide +kernel, by decide +kernel⟩
theorem witness_LoadResults : ∃ bs cs : List Byte, 4096 - 512 < bs.length ∧ bs.length = 3585 ∧
    cs.length ≤ 4096 - 512 ∧ cs.length = 3584 :=
  ⟨List.replicate 3585 0, List.replicate 3584 0, by decide +kernel, by decide +kernel, by decide +kernel, by decide +kernel⟩
theorem witness_ParkedStaysParked : ∃ s : State, s.fault = none ∧ s.parked ∧ s.pc = 0xFFE :=
  ⟨ready { State.reset with pc := 0xFFE } 0x1FFE, rfl, by decide +kernel, by decide +kernel⟩
theorem witness_PlacedWordIsFetched : ∃ (s : State) (w : Nat), Memory.wf s.params.font s.mem ∧ w < 65536 ∧ w = 65535 :=
  ⟨{ faultedState with pc := 0xFFF }, 65535, by decide, by decide, rfl⟩
theorem witness_KeypadIsUpUntilTheHostWritesIt : ∃ (s : State) (rs : List Request),
    (∀ k, Request.setKeypad k ∉ rs) ∧ s.keypadIn[3] = true ∧ rs ≠ [] :=
  ⟨keysDown State.reset [3], [.load (.bytes [0xF5, 0x0A]), .step 0, .init, .tick], by simp, by decide +kernel, by simp⟩

/-- A key held down before `initialize` is up for the first step after it (10_state.md R37). -/
theorem test_initialize_clears_the_port :
    (after (keysDown State.reset [3]).initialize 0xF50A).pc = 0x200 ∧
    (after (keysDown State.reset [3]) 0xF50A).pc = 0x202 := by decide +kernel

end Sys2Proof.Tests
end

section
/-! Memory as instruction fetch and the program file see it (20_memory.md R55). -/

namespace Sys2Proof.Machine

/-- The word at an address as a number: the byte there is the high one. -/
theorem State.toNat_wordAt (s : State) (a : Nat) :
    (s.wordAt a).toNat = (s.byteAt a).toNat * 256 + (s.byteAt (a + 1)).toNat :=
  toNat_wordOfBytes (s.byteAt a) (s.byteAt (a + 1))

/-- A program that fits is copied to `programBase`, and nothing else changes (70_reset_and_hazards.md R281). -/
theorem State.loadProgram_of_fits (s : State) {bs : List Byte} (h : bs.length ≤ maxProgramSize) :
    s.loadProgram (.bytes bs) =
      (.ok, { s with mem := s.mem.writeList s.params.font programBase bs }) := by
  simp [State.loadProgram, Nat.not_lt.2 h]

/-- After a load, `programBase + i` holds byte `i` of the file. -/
theorem State.byteAt_loadProgram {s : State} {bs : List Byte} {i : Nat} {b : Byte}
    (hwf : Memory.wf s.params.font s.mem) (hfits : bs.length ≤ maxProgramSize) (hb : bs[i]? = some b) :
    (s.loadProgram (.bytes bs)).2.byteAt (programBase + i) = b := by
  obtain ⟨hi, rfl⟩ := List.getElem?_eq_some_iff.1 hb
  rw [State.loadProgram_of_fits s hfits]
  exact Memory.read_writeList_inside s.params.font bs programBase i hwf hi

/-- Settles O7: a fetch answers the word at `pc`, and a load puts the file's byte pair where that word's two bytes
are read. -/
theorem fetchAndProgramFileAreBigEndian : Obligations.FetchAndProgramFileAreBigEndian := by
  constructor
  · intro s hpc
    exact ⟨s.wordAt s.pc.toNat, State.fetch_ok s hpc, State.toNat_wordAt s s.pc.toNat⟩
  · intro s bs k hi lo hwf hfits hhi hlo
    have hhigh : (s.loadProgram (.bytes bs)).2.byteAt (0x200 + 2 * k) = hi :=
      State.byteAt_loadProgram hwf hfits hhi
    have hlow : (s.loadProgram (.bytes bs)).2.byteAt (0x200 + 2 * k + 1) = lo :=
      State.byteAt_loadProgram hwf hfits hlo
    rw [State.toNat_wordAt, hhigh, hlow]

end Sys2Proof.Machine
end

section
/-! The fields of an instruction word (30_encoding.md R81). -/

namespace Sys2Proof

/-- Settles O5: each field is the quotient and remainder that its law in Laws/Decode.lean computes. -/
theorem fieldsOfAWord : Obligations.FieldsOfAWord := fun w =>
  ⟨toNat_fieldF w, val_fieldX w, val_fieldY w, toNat_fieldN w, toNat_fieldNN w, toNat_fieldNNN w⟩

end Sys2Proof
end

section
/-! Clear and jump (40_sys_jump_call.md R100, R102), and the facts about rows, addresses and completed steps that
they need. -/

namespace Sys2Proof.Machine

/-- A row that fixes all sixteen bits holds one word. -/
theorem RowDecodes.of_fixed_word {p : Word} {i : Word → Instr} (h : decodeWord p = .ok (i p)) :
    RowDecodes 0xFFFF p i := by
  intro w hw
  obtain rfl : w = p := (BitVec.and_allOnes (x := w)).symm.trans hw
  exact h

/-- A word of family 1 is a jump to its NNN. -/
theorem decodeWord_of_family_one {w : Word} (h : fieldF w = 1) : decodeWord w = .ok (.jp (fieldNNN w)) := by
  simp [decodeWord, h]

/-- An address immediate is zero-extended (30_encoding.md R82). -/
@[simp] theorem toNat_addressOf (nnn : BitVec 12) : (addressOf nnn).toNat = nnn.toNat :=
  BitVec.toNat_setWidth_of_le (by decide)

@[simp] theorem exec_cls (s : State) : exec .cls s = .next (s.setDisplay Display.dark) := rfl

@[simp] theorem exec_jp (nnn : BitVec 12) (s : State) : exec (.jp nnn) s = .next (s.setPc (addressOf nnn)) := rfl

@[simp] theorem Display.cell_dark (p : Nat) : Display.cell Display.dark p = false :=
  Display.pixel_dark (p % 64) (p / 64)

/-- Writing `pc` changes nothing else. -/
theorem State.onlyPc_setPc (s : State) (w : Word) : OnlyPc s (s.setPc w) :=
  ⟨State.byteAt_congr (State.setPc_mem s w) (State.setPc_params s w), rfl⟩

/-- In PerStep mode a completed step ends in a tick (60_exceptions.md R251). -/
theorem State.endOfStep_perStep {t : State} (h : t.params.timerTickSource = .perStep) :
    t.endOfStep = t.timerTick := by simp [State.endOfStep, h]

/-- A step whose instruction answers `t` without a fault answers `t` after the end of the step. -/
theorem step_completed {s t : State} {w : Word} {i : Instr} (hfault : s.fault = none) (hfetch : s.fetch = .ok w)
    (hdecode : decodeWord w = .ok i) (hexec : exec i (s.begin w) = .next t) (ht : t.fault = none) :
    step s = .next t.endOfStep := by
  rw [step_execute hfault hfetch hdecode, hexec, State.finishResult, State.finish_ok s ht]

/-- Settles O15: the dark display has no lit cell, and writing the display writes nothing else. -/
theorem clearDisplay : Obligations.ClearDisplay := by
  refine ⟨RowDecodes.of_fixed_word (by decide), fun s => ⟨s.setDisplay Display.dark, exec_cls s, ?_, ?_, rfl⟩⟩
  · exact fun p _ => Display.cell_dark p
  · exact State.byteAt_congr (State.setDisplay_mem s _) (State.setDisplay_params s _)

/-- A jump to 0xFFF leaves `pc` where the second byte of a fetch lies past memory. -/
theorem fetch_after_jump_to_last_byte (s : State) :
    (s.setPc (addressOf 0xFFF)).fetch = .error ⟨.outOfBoundsFetch, 0xFFF⟩ :=
  State.fetch_error _ (show memorySize ≤ (addressOf 0xFFF).toNat + 1 by decide)

/-- A step that jumps to its own address, in PerStep mode: only the tick, the sampled keypad and the latch. -/
theorem step_jump_to_self {s : State} {w : Word} {nnn : BitVec 12} (hfault : s.fault = none)
    (hmode : s.params.timerTickSource = .perStep) (hfetch : s.fetch = .ok w)
    (hdecode : decodeWord w = .ok (.jp nnn)) (hself : nnn.toNat = s.pc.toNat) :
    step s = .next { s.timerTick with keypad := s.keypadIn, opcode := w } := by
  have hpc : addressOf nnn = s.pc := BitVec.eq_of_toNat_eq ((toNat_addressOf nnn).trans hself)
  have hexec : exec (.jp nnn) (s.begin w) = .next ((s.begin w).setPc s.pc) := by rw [exec_jp, hpc]
  have hstep : step s = .next ((s.begin w).setPc s.pc).endOfStep :=
    step_completed hfault hfetch hdecode hexec hfault
  have htick : ((s.begin w).setPc s.pc).endOfStep = ((s.begin w).setPc s.pc).timerTick :=
    State.endOfStep_perStep hmode
  rw [hstep, htick]
  rfl

/-- Settles O17: `pc` becomes the zero-extended NNN, and a jump to its own address undoes the fetch advance. -/
theorem jumpToAddress : Obligations.JumpToAddress := by
  refine ⟨fun w hw => decodeWord_of_family_one (family_of_mask hw), fun nnn s => ?_, fun s w nnn => step_jump_to_self⟩
  refine ⟨s.setPc (addressOf nnn), exec_jp nnn s, toNat_addressOf nnn, s.onlyPc_setPc _, ?_⟩
  rintro rfl
  exact fetch_after_jump_to_last_byte s

end Sys2Proof.Machine
end

section
/-! The comparing skips, the immediate load and add, and the register copy (41_skip_load_add.md R120 to R125,
42_alu.md R142): how their words decode, what each instruction answers, and the frames of a skip and of a register
write. -/

namespace Sys2Proof

/-! ### Decoding by family -/

theorem decodeWord_of_family_three {w : Word} (h : fieldF w = 3) :
    decodeWord w = .ok (.seImm (fieldX w) (fieldNN w)) := by simp [decodeWord, h]

theorem decodeWord_of_family_four {w : Word} (h : fieldF w = 4) :
    decodeWord w = .ok (.sneImm (fieldX w) (fieldNN w)) := by simp [decodeWord, h]

/-- Family 5 needs N = 0 (30_encoding.md R87). -/
theorem decodeWord_of_family_five {w : Word} (h : fieldF w = 5) :
    decodeWord w = if fieldN w = 0 then .ok (.seReg (fieldX w) (fieldY w)) else .error (.unknownOpcode w) := by
  simp [decodeWord, h]

theorem decodeWord_of_family_six {w : Word} (h : fieldF w = 6) :
    decodeWord w = .ok (.ldImm (fieldX w) (fieldNN w)) := by simp [decodeWord, h]

theorem decodeWord_of_family_seven {w : Word} (h : fieldF w = 7) :
    decodeWord w = .ok (.addImm (fieldX w) (fieldNN w)) := by simp [decodeWord, h]

theorem decodeWord_of_family_eight {w : Word} (h : fieldF w = 8) : decodeWord w = decodeFamily8 w := by
  simp [decodeWord, h]

/-- Family 9 needs N = 0 (30_encoding.md R87). -/
theorem decodeWord_of_family_nine {w : Word} (h : fieldF w = 9) :
    decodeWord w = if fieldN w = 0 then .ok (.sneReg (fieldX w) (fieldY w)) else .error (.unknownOpcode w) := by
  simp [decodeWord, h]

theorem decodeFamily8_of_nibble_zero {w : Word} (h : fieldN w = 0) :
    decodeFamily8 w = .ok (.ldReg (fieldX w) (fieldY w)) := by simp [decodeFamily8, h]

end Sys2Proof

namespace Sys2Proof.Machine

/-- A row that fixes the family alone. -/
theorem RowDecodes.of_family {p : Word} {i : Word → Instr}
    (h : ∀ {w}, fieldF w = fieldF p → decodeWord w = .ok (i w)) : RowDecodes 0xF000 p i :=
  fun _ hw => h (family_of_mask hw)

/-- A row that fixes the family and the bottom nibble. -/
theorem RowDecodes.of_family_nibble {p : Word} {i : Word → Instr}
    (h : ∀ {w}, fieldF w = fieldF p → fieldN w = fieldN p → decodeWord w = .ok (i w)) : RowDecodes 0xF00F p i :=
  fun _ hw => (nibbles_of_mask hw).elim h

/-! ### What each instruction answers -/

variable (x y : RegIdx) (nn : Byte) (s : State)

@[simp] theorem exec_seImm : exec (.seImm x nn) s = .next (s.skipIf (s.getV x == nn)) := rfl

@[simp] theorem exec_sneImm : exec (.sneImm x nn) s = .next (s.skipIf (s.getV x != nn)) := rfl

@[simp] theorem exec_seReg : exec (.seReg x y) s = .next (s.skipIf (s.getV x == s.getV y)) := rfl

@[simp] theorem exec_sneReg : exec (.sneReg x y) s = .next (s.skipIf (s.getV x != s.getV y)) := rfl

@[simp] theorem exec_ldImm : exec (.ldImm x nn) s = .next (s.setV x nn) := rfl

@[simp] theorem exec_addImm : exec (.addImm x nn) s = .next (s.setV x (s.getV x + nn)) := rfl

@[simp] theorem exec_ldReg : exec (.ldReg x y) s = .next (s.setV x (s.getV y)) := rfl

/-! ### A skip and a register write -/

/-- A skip changes nothing but `pc`, taken or not. -/
theorem State.onlyPc_skipIf (c : Bool) : OnlyPc s (s.skipIf c) :=
  ⟨State.byteAt_congr (s.skipIf_mem c) (s.skipIf_params c), by cases c <;> rfl⟩

theorem State.skipIf_beq_pc (a b : Byte) :
    (s.skipIf (a == b)).pc = if a = b then s.pc + 2 else s.pc := by simp

theorem State.skipIf_bne_pc (a b : Byte) :
    (s.skipIf (a != b)).pc = if a = b then s.pc else s.pc + 2 := by simp

/-- At 0x1002, where a skip at 0xFFE ends, there is no word to fetch. -/
theorem fetch_after_skip_at_last_word {t : State} (h : t.pc = 0x1002) :
    t.fetch = .error ⟨.outOfBoundsFetch, 0x1002⟩ := by
  have hpast : memorySize ≤ t.pc.toNat + 1 := by rw [h]; decide
  rw [State.fetch_error t hpast, h]
  rfl

/-- Writing a register changes no other register and nothing else. -/
theorem State.onlyRegs_setV (b : Byte) : OnlyRegs s (s.setV x b) [x] := by
  refine ⟨fun r hr => ?_, State.byteAt_congr (s.setV_mem x b) (s.setV_params x b), rfl⟩
  rw [State.getV_setV, if_neg (List.ne_of_not_mem_cons hr)]

theorem State.getV_setV_self (b : Byte) : (s.setV x b).getV x = b := by simp

end Sys2Proof.Machine

namespace Sys2Proof.Machine

/-- Settles O20: the rows by family, and each instruction is a skip on its comparison. -/
theorem compareAndSkip : Obligations.CompareAndSkip := by
  refine ⟨.of_family decodeWord_of_family_three, .of_family decodeWord_of_family_four,
    .of_family_nibble fun hf hn => (decodeWord_of_family_five hf).trans (if_pos hn),
    .of_family_nibble fun hf hn => (decodeWord_of_family_nine hf).trans (if_pos hn),
    fun w hf hn => (decodeWord_of_family_five hf).trans (if_neg hn),
    fun t => fetch_after_skip_at_last_word, fun x y nn s => ⟨?_, ?_, ?_, ?_⟩⟩
  · exact ⟨_, exec_seImm x nn s, s.onlyPc_skipIf _, s.skipIf_beq_pc _ _⟩
  · exact ⟨_, exec_sneImm x nn s, s.onlyPc_skipIf _, s.skipIf_bne_pc _ _⟩
  · exact ⟨_, exec_seReg x y s, s.onlyPc_skipIf _, s.skipIf_beq_pc _ _⟩
  · exact ⟨_, exec_sneReg x y s, s.onlyPc_skipIf _, s.skipIf_bne_pc _ _⟩

/-- Settles O21: the rows by family, and each instruction is one write of `V[X]`, with X = F as any other. -/
theorem loadAddImmediateAndCopy : Obligations.LoadAddImmediateAndCopy := by
  refine ⟨.of_family decodeWord_of_family_six, .of_family decodeWord_of_family_seven,
    .of_family_nibble fun hf hn => (decodeWord_of_family_eight hf).trans (decodeFamily8_of_nibble_zero hn),
    fun x y nn s => ⟨?_, ?_, ?_⟩⟩
  · exact ⟨_, exec_ldImm x nn s, s.onlyRegs_setV x nn, s.getV_setV_self x nn⟩
  · refine ⟨_, exec_addImm x nn s, s.onlyRegs_setV x _, ?_⟩
    rw [State.getV_setV_self, BitVec.toNat_add]
  · exact ⟨_, exec_ldReg x y s, s.onlyRegs_setV x _, s.getV_setV_self x _⟩

end Sys2Proof.Machine
end

section
/-! The index load (43_index_offset_random.md R170). -/

namespace Sys2Proof

theorem decodeWord_of_family_ten {w : Word} (h : fieldF w = 10) : decodeWord w = .ok (.ldIndex (fieldNNN w)) := by
  simp [decodeWord, h]

end Sys2Proof

namespace Sys2Proof.Machine

@[simp] theorem exec_ldIndex (nnn : BitVec 12) (s : State) :
    exec (.ldIndex nnn) s = .next (s.setIndex (addressOf nnn)) := rfl

/-- Writing `index` changes no byte of memory, whatever address it then holds. -/
theorem State.sameMemory_setIndex (s : State) (w : Word) : SameMemory s (s.setIndex w) :=
  State.byteAt_congr (s.setIndex_mem w) (s.setIndex_params w)

/-- An index loaded from an address immediate is that immediate, zero-extended. -/
theorem State.toNat_setIndex_addressOf (s : State) (nnn : BitVec 12) :
    (s.setIndex (addressOf nnn)).index.toNat = nnn.toNat := by
  rw [State.setIndex_index, toNat_addressOf]

/-- Settles O26: the row is family 0xA, and the instruction is one write of `index` with the zero-extended NNN. -/
theorem setIndex : Obligations.SetIndex := by
  refine ⟨.of_family decodeWord_of_family_ten, fun nnn s => ?_⟩
  exact ⟨s.setIndex (addressOf nnn), exec_ldIndex nnn s, s.toNat_setIndex_addressOf nnn,
    s.sameMemory_setIndex _, rfl⟩

end Sys2Proof.Machine
end

section
/-! The key wait (46_misc.md R211): its row, the key scan on the sampled keypad, and the step that leaves `pc` where
it was. -/

namespace Sys2Proof

theorem decodeWord_of_family_fifteen {w : Word} (h : fieldF w = 15) : decodeWord w = decodeFamilyF w := by
  simp [decodeWord, h]

theorem decodeFamilyF_of_byte_0A {w : Word} (h : fieldNN w = 0x0A) : decodeFamilyF w = .ok (.ldKey (fieldX w)) := by
  simp [decodeFamilyF, h]

end Sys2Proof

namespace Sys2Proof.Machine

/-- A row that fixes the family and the bottom byte. -/
theorem RowDecodes.of_family_byte {p : Word} {i : Word → Instr}
    (h : ∀ {w}, fieldF w = fieldF p → fieldNN w = fieldNN p → decodeWord w = .ok (i w)) : RowDecodes 0xF0FF p i :=
  fun _ hw => (byte_of_mask hw).elim h

/-! ### The key scan -/

/-- A key that is down, with every key below it up, is the lowest. -/
theorem State.lowestKey_eq_some {s : State} {k : Fin 16} (hdown : s.keypad[k.val] = true)
    (hbelow : ∀ j : Fin 16, j < k → s.keypad[j.val] = false) : s.lowestKey = some k.val := by
  refine (firstTrue_eq_some s.keypad.toList 0 k.val).2 ⟨Nat.zero_le _, by simpa using hdown, fun j hj => ?_⟩
  have hj16 : j < 16 := by omega
  simpa [hj16] using hbelow ⟨j, hj16⟩ hj

/-- With every key up there is no lowest key. -/
theorem State.lowestKey_eq_none {s : State} (hup : ∀ j : Fin 16, s.keypad[j.val] = false) : s.lowestKey = none := by
  refine (firstTrue_eq_none s.keypad.toList 0).2 fun b hb => ?_
  obtain ⟨i, hi, rfl⟩ := Vector.mem_iff_getElem.1 (Vector.mem_toList_iff.1 hb)
  exact hup ⟨i, hi⟩

theorem exec_ldKey_of_lowestKey {x : RegIdx} {s : State} {k : Nat} (h : s.lowestKey = some k) :
    exec (.ldKey x) s = .next (s.setV x (BitVec.ofNat 8 k)) := by
  rw [exec, execLdKey, h]

theorem exec_ldKey_of_no_key {x : RegIdx} {s : State} (h : s.lowestKey = none) :
    exec (.ldKey x) s = .next (s.setPc (s.pc - 2)) := by
  rw [exec, execLdKey, h]

/-! ### The waiting step -/

/-- In External mode a completed step ends without a tick (60_exceptions.md R252). -/
theorem State.endOfStep_external {t : State} (h : t.params.timerTickSource = .external) : t.endOfStep = t := by
  simp [State.endOfStep, h]

/-- A waiting key instruction undoes the fetch advance of the step it runs in. -/
theorem exec_ldKey_waiting {x : RegIdx} {s : State} (w : Word) (hup : ∀ j : Fin 16, s.keypadIn[j.val] = false) :
    exec (.ldKey x) (s.begin w) = .next ((s.begin w).setPc s.pc) := by
  rw [exec_ldKey_of_no_key (State.lowestKey_eq_none hup), State.begin_pc, BitVec.add_sub_cancel]

/-- A step in which FX0A finds every key up is the end of a step that did nothing but sample and latch. -/
theorem step_waiting {x : RegIdx} {s : State} {w : Word} (hfault : s.fault = none) (hfetch : s.fetch = .ok w)
    (hdecode : decodeWord w = .ok (.ldKey x)) (hup : ∀ j : Fin 16, s.keypadIn[j.val] = false) :
    step s = .next { s with keypad := s.keypadIn, opcode := w }.endOfStep :=
  step_completed hfault hfetch hdecode (exec_ldKey_waiting w hup) hfault

/-- Settles O33: the scan picks the key FX0A writes; with none, the rewind cancels the fetch advance, and the mode
decides whether the step then ticks. -/
theorem waitForKey : Obligations.WaitForKey := by
  refine ⟨.of_family_byte fun hf hn => (decodeWord_of_family_fifteen hf).trans (decodeFamilyF_of_byte_0A hn),
    fun x s k hdown hbelow => ?_, fun x s hup => ?_,
    fun x s w hfault hfetch hdecode hup => ⟨fun hmode => ?_, fun hmode => ?_⟩⟩
  · refine ⟨_, exec_ldKey_of_lowestKey (State.lowestKey_eq_some hdown hbelow), s.onlyRegs_setV x _, ?_⟩
    rw [State.getV_setV_self, BitVec.toNat_ofNat]
    omega
  · exact ⟨_, exec_ldKey_of_no_key (State.lowestKey_eq_none hup), s.onlyPc_setPc _, s.setPc_pc _,
      fun hpc => BitVec.toNat_sub_of_le hpc⟩
  · exact (step_waiting hfault hfetch hdecode hup).trans (congrArg Host.Outcome.next (State.endOfStep_perStep hmode))
  · exact (step_waiting hfault hfetch hdecode hup).trans (congrArg Host.Outcome.next (State.endOfStep_external hmode))

end Sys2Proof.Machine
end

section
/-! What a load reports (60_exceptions.md R247). -/

namespace Sys2Proof.Machine

/-- A program longer than the space above `programBase` is not copied (70_reset_and_hazards.md R281). -/
theorem State.loadProgram_of_too_large (s : State) {bs : List Byte} (h : maxProgramSize < bs.length) :
    s.loadProgram (.bytes bs) = (.programTooLarge, s) := by
  simp [State.loadProgram, h]

/-- A load never writes the fault record, whatever it reports. -/
@[simp] theorem State.loadProgram_fault (s : State) (src : LoadSource) : (s.loadProgram src).2.fault = s.fault := by
  cases src with
  | readError => rfl
  | bytes bs =>
    rcases Nat.lt_or_ge maxProgramSize bs.length with hlarge | hfits
    · rw [s.loadProgram_of_too_large hlarge]
    · rw [s.loadProgram_of_fits hfits]

/-- Settles O54: a read error, a file that is too large and a file that fits are the three results of a load, and
only the last changes the state. -/
theorem loadResults : Obligations.LoadResults := by
  refine fun s bs => ⟨rfl, s.loadProgram_of_too_large, fun hfits => ?_, s.loadProgram_fault _, fun _ => rfl⟩
  rw [s.loadProgram_of_fits hfits]

end Sys2Proof.Machine
end

section
/-! The tick of a completed step in PerStep mode (60_exceptions.md R251): a tick is two independent floored
decrements, a step that completes ran an instruction to its end, and no instruction changes the parameters, so the
mode at the end of the step is the mode at its start. -/

namespace Sys2Proof.Machine

@[simp] theorem toNat_tickDown (b : Byte) : (tickDown b).toNat = b.toNat - 1 := by
  unfold tickDown
  split
  case isTrue hzero => rw [hzero]; rfl
  case isFalse hpos => bv_omega

/-! ### No instruction changes the parameters (00_scope.md R8) -/

/-- The outcome of an instruction that began in `s`: a next state with the parameters of `s`. -/
def KeepsParams (s : State) (o : Result) : Prop := ∃ t, o = .next t ∧ t.params = s.params

theorem KeepsParams.next {s t : State} (h : t.params = s.params) : KeepsParams s (.next t) := ⟨t, rfl, h⟩

theorem KeepsParams.raise (s : State) (r : Raised) : KeepsParams s (s.raise r) := .next rfl

theorem KeepsParams.orRaise {s : State} {c : Except Raised State} (h : ∀ t, c = .ok t → t.params = s.params) :
    KeepsParams s (s.orRaise c) := by
  cases c with
  | ok t => exact .next (h t rfl)
  | error r => exact .raise s r

@[simp] theorem State.setVs_params (s : State) (i : Nat) (bs : List Byte) : (s.setVs i bs).params = s.params := by
  rw [State.setVs_only]

theorem State.push_params {s t : State} {w : Word} (h : s.push w = some t) : t.params = s.params := by
  unfold State.push at h
  split at h
  · cases h; rfl
  · cases h

theorem State.pop_params {s t : State} {w : Word} (h : s.pop = some (w, t)) : t.params = s.params := by
  unfold State.pop at h
  split at h
  · cases h; rfl
  · cases h

theorem State.writeBytes_params {s t : State} {a : Nat} {bs : List Byte} (h : s.writeBytes a bs = .ok t) :
    t.params = s.params := by
  cases bs with
  | nil => cases h; rfl
  | cons b bs =>
    rw [s.writeBytes_eq a (List.cons_ne_nil b bs)] at h
    split at h
    · cases h
    · cases h; rfl

/-- Every instruction answers a next state and keeps the parameters. -/
theorem exec_keepsParams (i : Instr) (s : State) : KeepsParams s (exec i s) := by
  cases i with
  | cls | jp | ldImm | addImm | ldReg | orReg | andReg | xorReg | ldIndex | jpOffset | rnd | ldFromDelay | ldDelay
  | ldSound | addIndex => exact .next rfl
  | seImm | sneImm | seReg | sneReg => exact .next (s.skipIf_params _)
  | addReg | subReg | shr | subnReg | shl => exact .next (s.writeRF_params _ _ _)
  | ret =>
    rw [exec, execRet]
    split
    · exact .next rfl
    next w t hpop => exact .next ((t.setPc_params w).trans (State.pop_params hpop))
  | call nnn =>
    rw [exec, execCall]
    split
    · exact .raise s _
    next t hpush => exact .next ((t.setPc_params _).trans (State.push_params hpush))
  | drw | ldGlyph =>
    dsimp only [exec, execDrw, execLdGlyph]
    split
    · exact .raise s _
    · exact .next rfl
  | skp | sknp =>
    dsimp only [exec, execSkp, execSknp]
    split
    · exact .raise s _
    · exact .next (s.skipIf_params _)
  | ldKey x =>
    rw [exec, execLdKey]
    split <;> exact .next rfl
  | storeBcd => exact .orRaise fun _ => State.writeBytes_params
  | storeRegs x =>
    rw [exec, execStoreRegs]
    split
    · exact .raise s _
    next t hwrite => exact .next ((t.advanceIndex_params x).trans (State.writeBytes_params hwrite))
  | loadRegs x =>
    rw [exec, execLoadRegs]
    split
    · exact .raise s _
    next bs _ => exact .next ((State.advanceIndex_params _ x).trans (s.setVs_params 0 bs))

/-! ### A step that completes -/

/-- The end of a step reports no fault only when its instruction raised none. -/
theorem State.fault_eq_none_of_finish {s u : State} (h : (s.finish u).fault = none) : u.fault = none := by
  cases hu : u.fault with
  | none => rfl
  | some r => rw [s.finish_fault hu] at h; cases h

/-- A step that completes fetched a word, decoded it, and ran its instruction to the end of the step without a
fault: the converse of `step_completed`. -/
theorem exists_exec_of_step_completed {s t : State} (hfault : s.fault = none) (hstep : step s = .next t)
    (ht : t.fault = none) : ∃ w i u, s.fetch = .ok w ∧ decodeWord w = .ok i ∧ exec i (s.begin w) = .next u ∧
      u.fault = none ∧ t = u.endOfStep := by
  obtain ⟨r, hr, -⟩ | ⟨r, -, -, h⟩ | ⟨w, e, -, -, -, h⟩ | ⟨w, i, -, hfetch, hdecode, h⟩ := step_cases s
  · exact absurd (hfault.symm.trans hr) nofun
  · cases hstep.symm.trans h; cases ht
  · cases hstep.symm.trans h; cases ht
  · obtain ⟨u, hexec, -⟩ := exec_keepsParams i (s.begin w)
    rw [hexec, State.finishResult] at h
    cases hstep.symm.trans h
    have hu : u.fault = none := State.fault_eq_none_of_finish ht
    exact ⟨w, i, u, hfetch, hdecode, hexec, hu, s.finish_ok hu⟩

/-- The instruction of a step leaves the parameters as the step found them. -/
theorem params_of_exec_begin {s u : State} {w : Word} {i : Instr} (h : exec i (s.begin w) = .next u) :
    u.params = s.params := by
  obtain ⟨t, hexec, hparams⟩ := exec_keepsParams i (s.begin w)
  cases h.symm.trans hexec
  exact hparams

/-- Settles O40: a tick is one `tickDown` of each timer, and the end of a completed step is a tick because its
instruction leaves the mode as it was. -/
theorem timerTick : Obligations.TimerTick := by
  refine ⟨fun s => ⟨toNat_tickDown s.delay, toNat_tickDown s.sound, rfl⟩, fun s t hmode hfault hstep ht => ?_⟩
  obtain ⟨w, i, u, hfetch, hdecode, hexec, hu, rfl⟩ := exists_exec_of_step_completed hfault hstep ht
  have hmode' : u.params.timerTickSource = .perStep := by rw [params_of_exec_begin hexec, hmode]
  exact ⟨w, i, u, hfetch, hdecode, hexec, hu, State.endOfStep_perStep hmode'⟩

end Sys2Proof.Machine
end

section
/-! The encoder and the decoder are inverse to each other on the words of opcode_table.json, and every other word
is refused (30_encoding.md R84 to R91). -/

namespace Sys2Proof

/-! ### Decoding an encoded instruction -/

/-- The decoder reads back every operand the encoder packed. -/
theorem decodeWord_encode (i : Instr) : decodeWord (encode i) = .ok i := by
  cases i with
  | cls | ret => rfl
  | jp | call | ldIndex | jpOffset => simp [encode, decodeWord]
  | seImm | sneImm | ldImm | addImm | rnd => simp [encode, decodeWord]
  | seReg | sneReg | drw => simp [encode, decodeWord]
  | ldReg | orReg | andReg | xorReg | addReg | subReg | shr | subnReg | shl =>
    simp [encode, decodeWord, decodeFamily8]
  | skp | sknp => simp [encode, decodeWord, decodeFamilyE]
  | ldFromDelay | ldKey | ldDelay | ldSound | addIndex | ldGlyph | storeBcd | storeRegs | loadRegs =>
    simp [encode, decodeWord, decodeFamilyF]

/-- Settles O1: the word's two bytes put the word together again, which decodes to the instruction. -/
theorem decodeAfterEncodeIsIdentity : Obligations.DecodeAfterEncodeIsIdentity := by
  refine fun i => ⟨decodeWord_encode i, fun rest => ?_⟩
  simp [encodeBytes, decodeBytes, decodeWord_encode]

/-! ### The words the encoder produces -/

/-- A word of family `f` is `f` and its NNN. -/
theorem packNNN_of_family {w : Word} {f : BitVec 4} (hf : fieldF w = f) : packNNN f (fieldNNN w) = w := by
  rw [← hf, packNNN_fields]

/-- A word of family `f` is `f`, its X and its NN. -/
theorem packXNN_of_family {w : Word} {f : BitVec 4} (hf : fieldF w = f) :
    packXNN f (fieldX w) (fieldNN w) = w := by
  rw [← hf, packXNN_fields]

/-- A word of family `f` with bottom byte `nn` is `f`, its X and `nn`. -/
theorem packXNN_of_byte {w : Word} {f : BitVec 4} {nn : Byte} (hf : fieldF w = f) (hn : fieldNN w = nn) :
    packXNN f (fieldX w) nn = w := by
  rw [← hn, packXNN_of_family hf]

/-- A word of family `f` with bottom nibble `n` is `f`, its X, its Y and `n`. -/
theorem packXYN_of_nibble {w : Word} {f n : BitVec 4} (hf : fieldF w = f) (hn : fieldN w = n) :
    packXYN f (fieldX w) (fieldY w) n = w := by
  rw [← hf, ← hn, packXYN_fields]

/-- A word under the mask of family and bottom nibble. -/
theorem packXYN_of_mask {w p : Word} {f n : BitVec 4} (h : w &&& 0xF00F = p) (hf : fieldF p = f)
    (hn : fieldN p = n) : packXYN f (fieldX w) (fieldY w) n = w :=
  packXYN_of_nibble ((nibbles_of_mask h).1.trans hf) ((nibbles_of_mask h).2.trans hn)

/-- A word under the mask of family and bottom byte. -/
theorem packXNN_of_mask {w p : Word} {f : BitVec 4} {nn : Byte} (h : w &&& 0xF0FF = p) (hf : fieldF p = f)
    (hn : fieldNN p = nn) : packXNN f (fieldX w) nn = w :=
  packXNN_of_byte ((byte_of_mask h).1.trans hf) ((byte_of_mask h).2.trans hn)

/-- Every word of a row of the table encodes an instruction of that row. -/
theorem exists_encode_of_accepts {w : Word} {r : Row} (hr : r ∈ opcodeTable) (hw : r.accepts w = true) :
    ∃ i, encode i = w ∧ i.row = r := by
  have hmask : w &&& r.mask = r.pattern := beq_iff_eq.1 hw
  simp only [opcodeTable, List.cons_append, List.nil_append, List.mem_cons, List.not_mem_nil, or_false] at hr
  obtain rfl | rfl | rfl | rfl | rfl | rfl | rfl | rfl | rfl | rfl | rfl | rfl | rfl | rfl | rfl | rfl | rfl |
    rfl | rfl | rfl | rfl | rfl | rfl | rfl | rfl | rfl | rfl | rfl | rfl | rfl | rfl | rfl | rfl | rfl := hr
  · exact ⟨.cls, hmask.symm.trans BitVec.and_allOnes, rfl⟩
  · exact ⟨.ret, hmask.symm.trans BitVec.and_allOnes, rfl⟩
  · exact ⟨.jp (fieldNNN w), packNNN_of_family (family_of_mask hmask), rfl⟩
  · exact ⟨.call (fieldNNN w), packNNN_of_family (family_of_mask hmask), rfl⟩
  · exact ⟨.seImm (fieldX w) (fieldNN w), packXNN_of_family (family_of_mask hmask), rfl⟩
  · exact ⟨.sneImm (fieldX w) (fieldNN w), packXNN_of_family (family_of_mask hmask), rfl⟩
  · exact ⟨.seReg (fieldX w) (fieldY w), packXYN_of_mask hmask rfl rfl, rfl⟩
  · exact ⟨.ldImm (fieldX w) (fieldNN w), packXNN_of_family (family_of_mask hmask), rfl⟩
  · exact ⟨.addImm (fieldX w) (fieldNN w), packXNN_of_family (family_of_mask hmask), rfl⟩
  · exact ⟨.ldReg (fieldX w) (fieldY w), packXYN_of_mask hmask rfl rfl, rfl⟩
  · exact ⟨.orReg (fieldX w) (fieldY w), packXYN_of_mask hmask rfl rfl, rfl⟩
  · exact ⟨.andReg (fieldX w) (fieldY w), packXYN_of_mask hmask rfl rfl, rfl⟩
  · exact ⟨.xorReg (fieldX w) (fieldY w), packXYN_of_mask hmask rfl rfl, rfl⟩
  · exact ⟨.addReg (fieldX w) (fieldY w), packXYN_of_mask hmask rfl rfl, rfl⟩
  · exact ⟨.subReg (fieldX w) (fieldY w), packXYN_of_mask hmask rfl rfl, rfl⟩
  · exact ⟨.shr (fieldX w) (fieldY w), packXYN_of_mask hmask rfl rfl, rfl⟩
  · exact ⟨.subnReg (fieldX w) (fieldY w), packXYN_of_mask hmask rfl rfl, rfl⟩
  · exact ⟨.shl (fieldX w) (fieldY w), packXYN_of_mask hmask rfl rfl, rfl⟩
  · exact ⟨.sneReg (fieldX w) (fieldY w), packXYN_of_mask hmask rfl rfl, rfl⟩
  · exact ⟨.ldIndex (fieldNNN w), packNNN_of_family (family_of_mask hmask), rfl⟩
  · exact ⟨.jpOffset (fieldNNN w), packNNN_of_family (family_of_mask hmask), rfl⟩
  · exact ⟨.rnd (fieldX w) (fieldNN w), packXNN_of_family (family_of_mask hmask), rfl⟩
  · exact ⟨.drw (fieldX w) (fieldY w) (fieldN w).toFin, packXYN_of_nibble (family_of_mask hmask) rfl, rfl⟩
  · exact ⟨.skp (fieldX w), packXNN_of_mask hmask rfl rfl, rfl⟩
  · exact ⟨.sknp (fieldX w), packXNN_of_mask hmask rfl rfl, rfl⟩
  · exact ⟨.ldFromDelay (fieldX w), packXNN_of_mask hmask rfl rfl, rfl⟩
  · exact ⟨.ldKey (fieldX w), packXNN_of_mask hmask rfl rfl, rfl⟩
  · exact ⟨.ldDelay (fieldX w), packXNN_of_mask hmask rfl rfl, rfl⟩
  · exact ⟨.ldSound (fieldX w), packXNN_of_mask hmask rfl rfl, rfl⟩
  · exact ⟨.addIndex (fieldX w), packXNN_of_mask hmask rfl rfl, rfl⟩
  · exact ⟨.ldGlyph (fieldX w), packXNN_of_mask hmask rfl rfl, rfl⟩
  · exact ⟨.storeBcd (fieldX w), packXNN_of_mask hmask rfl rfl, rfl⟩
  · exact ⟨.storeRegs (fieldX w), packXNN_of_mask hmask rfl rfl, rfl⟩
  · exact ⟨.loadRegs (fieldX w), packXNN_of_mask hmask rfl rfl, rfl⟩

/-! ### The words the decoder refuses -/

theorem encode_or_unknown_of_family_zero (w : Word) :
    (∃ i, encode i = w) ∨ decodeFamily0 w = .error (.unknownOpcode w) := by
  unfold decodeFamily0
  split_ifs with hcls hret
  · exact .inl ⟨.cls, hcls.symm⟩
  · exact .inl ⟨.ret, hret.symm⟩
  · exact .inr rfl

theorem encode_or_unknown_of_family_eight {w : Word} (hf : fieldF w = 8) :
    (∃ i, encode i = w) ∨ decodeFamily8 w = .error (.unknownOpcode w) := by
  have word {n : BitVec 4} (hn : (fieldN w).toNat = n.toNat) : packXYN 8 (fieldX w) (fieldY w) n = w :=
    packXYN_of_nibble hf (BitVec.eq_of_toNat_eq hn)
  unfold decodeFamily8
  split
  next hn => exact .inl ⟨.ldReg (fieldX w) (fieldY w), word hn⟩
  next hn => exact .inl ⟨.orReg (fieldX w) (fieldY w), word hn⟩
  next hn => exact .inl ⟨.andReg (fieldX w) (fieldY w), word hn⟩
  next hn => exact .inl ⟨.xorReg (fieldX w) (fieldY w), word hn⟩
  next hn => exact .inl ⟨.addReg (fieldX w) (fieldY w), word hn⟩
  next hn => exact .inl ⟨.subReg (fieldX w) (fieldY w), word hn⟩
  next hn => exact .inl ⟨.shr (fieldX w) (fieldY w), word hn⟩
  next hn => exact .inl ⟨.subnReg (fieldX w) (fieldY w), word hn⟩
  next hn => exact .inl ⟨.shl (fieldX w) (fieldY w), word hn⟩
  · exact .inr rfl

theorem encode_or_unknown_of_family_fourteen {w : Word} (hf : fieldF w = 14) :
    (∃ i, encode i = w) ∨ decodeFamilyE w = .error (.unknownOpcode w) := by
  unfold decodeFamilyE
  split_ifs with h9E hA1
  · exact .inl ⟨.skp (fieldX w), packXNN_of_byte hf h9E⟩
  · exact .inl ⟨.sknp (fieldX w), packXNN_of_byte hf hA1⟩
  · exact .inr rfl

theorem encode_or_unknown_of_family_fifteen {w : Word} (hf : fieldF w = 15) :
    (∃ i, encode i = w) ∨ decodeFamilyF w = .error (.unknownOpcode w) := by
  unfold decodeFamilyF
  split_ifs with h07 h0A h15 h18 h1E h29 h33 h55 h65
  · exact .inl ⟨.ldFromDelay (fieldX w), packXNN_of_byte hf h07⟩
  · exact .inl ⟨.ldKey (fieldX w), packXNN_of_byte hf h0A⟩
  · exact .inl ⟨.ldDelay (fieldX w), packXNN_of_byte hf h15⟩
  · exact .inl ⟨.ldSound (fieldX w), packXNN_of_byte hf h18⟩
  · exact .inl ⟨.addIndex (fieldX w), packXNN_of_byte hf h1E⟩
  · exact .inl ⟨.ldGlyph (fieldX w), packXNN_of_byte hf h29⟩
  · exact .inl ⟨.storeBcd (fieldX w), packXNN_of_byte hf h33⟩
  · exact .inl ⟨.storeRegs (fieldX w), packXNN_of_byte hf h55⟩
  · exact .inl ⟨.loadRegs (fieldX w), packXNN_of_byte hf h65⟩
  · exact .inr rfl

/-- A word is the encoding of an instruction, or it is refused. -/
theorem encode_or_unknown (w : Word) : (∃ i, encode i = w) ∨ decodeWord w = .error (.unknownOpcode w) := by
  have family {f : BitVec 4} (h : (fieldF w).toNat = f.toNat) : fieldF w = f := BitVec.eq_of_toNat_eq h
  unfold decodeWord
  split
  · exact encode_or_unknown_of_family_zero w
  next hf => exact .inl ⟨.jp (fieldNNN w), packNNN_of_family (family hf)⟩
  next hf => exact .inl ⟨.call (fieldNNN w), packNNN_of_family (family hf)⟩
  next hf => exact .inl ⟨.seImm (fieldX w) (fieldNN w), packXNN_of_family (family hf)⟩
  next hf => exact .inl ⟨.sneImm (fieldX w) (fieldNN w), packXNN_of_family (family hf)⟩
  next hf =>
    split_ifs with hn
    · exact .inl ⟨.seReg (fieldX w) (fieldY w), packXYN_of_nibble (family hf) hn⟩
    · exact .inr rfl
  next hf => exact .inl ⟨.ldImm (fieldX w) (fieldNN w), packXNN_of_family (family hf)⟩
  next hf => exact .inl ⟨.addImm (fieldX w) (fieldNN w), packXNN_of_family (family hf)⟩
  next hf => exact encode_or_unknown_of_family_eight (family hf)
  next hf =>
    split_ifs with hn
    · exact .inl ⟨.sneReg (fieldX w) (fieldY w), packXYN_of_nibble (family hf) hn⟩
    · exact .inr rfl
  next hf => exact .inl ⟨.ldIndex (fieldNNN w), packNNN_of_family (family hf)⟩
  next hf => exact .inl ⟨.jpOffset (fieldNNN w), packNNN_of_family (family hf)⟩
  next hf => exact .inl ⟨.rnd (fieldX w) (fieldNN w), packXNN_of_family (family hf)⟩
  next hf => exact .inl ⟨.drw (fieldX w) (fieldY w) (fieldN w).toFin, packXYN_of_nibble (family hf) rfl⟩
  next hf => exact encode_or_unknown_of_family_fourteen (family hf)
  next hf => exact encode_or_unknown_of_family_fifteen (family hf)
  · exact .inr rfl

/-- Every instruction's row stands in the table. -/
theorem Instr.row_mem (i : Instr) : i.row ∈ opcodeTable := by
  cases i <;> exact of_decide_eq_true rfl

open Laws in
/-- An encoded instruction belongs to its row. -/
theorem row_accepts_encode (i : Instr) : i.row.accepts (encode i) = true := by
  refine beq_iff_eq.2 ?_
  cases i with
  | cls => exact EncodeInRow.cls
  | ret => exact EncodeInRow.ret
  | jp nnn => exact EncodeInRow.jp nnn
  | call nnn => exact EncodeInRow.call nnn
  | seImm x nn => exact EncodeInRow.seImm x nn
  | sneImm x nn => exact EncodeInRow.sneImm x nn
  | seReg x y => exact EncodeInRow.seReg x y
  | ldImm x nn => exact EncodeInRow.ldImm x nn
  | addImm x nn => exact EncodeInRow.addImm x nn
  | ldReg x y => exact EncodeInRow.ldReg x y
  | orReg x y => exact EncodeInRow.orReg x y
  | andReg x y => exact EncodeInRow.andReg x y
  | xorReg x y => exact EncodeInRow.xorReg x y
  | addReg x y => exact EncodeInRow.addReg x y
  | subReg x y => exact EncodeInRow.subReg x y
  | shr x y => exact EncodeInRow.shr x y
  | subnReg x y => exact EncodeInRow.subnReg x y
  | shl x y => exact EncodeInRow.shl x y
  | sneReg x y => exact EncodeInRow.sneReg x y
  | ldIndex nnn => exact EncodeInRow.ldIndex nnn
  | jpOffset nnn => exact EncodeInRow.jpOffset nnn
  | rnd x nn => exact EncodeInRow.rnd x nn
  | drw x y n => exact EncodeInRow.drw x y n
  | skp x => exact EncodeInRow.skp x
  | sknp x => exact EncodeInRow.sknp x
  | ldFromDelay x => exact EncodeInRow.ldFromDelay x
  | ldKey x => exact EncodeInRow.ldKey x
  | ldDelay x => exact EncodeInRow.ldDelay x
  | ldSound x => exact EncodeInRow.ldSound x
  | addIndex x => exact EncodeInRow.addIndex x
  | ldGlyph x => exact EncodeInRow.ldGlyph x
  | storeBcd x => exact EncodeInRow.storeBcd x
  | storeRegs x => exact EncodeInRow.storeRegs x
  | loadRegs x => exact EncodeInRow.loadRegs x

/-- The legal words are the encoder's. -/
theorem legalWord_iff (w : Word) : legalWord w = true ↔ ∃ i, encode i = w := by
  constructor
  · intro h
    obtain ⟨r, hr, hw⟩ := List.any_eq_true.1 h
    exact (exists_encode_of_accepts hr hw).imp fun _ => And.left
  · rintro ⟨i, rfl⟩
    exact List.any_eq_true.2 ⟨i.row, i.row_mem, row_accepts_encode i⟩

/-- A word that is not legal is `UnknownOpcode` (30_encoding.md R85). -/
theorem decodeWord_of_not_legal {w : Word} (h : legalWord w = false) :
    decodeWord w = .error (.unknownOpcode w) := by
  refine (encode_or_unknown w).resolve_left fun hi => ?_
  rw [(legalWord_iff w).2 hi] at h
  cases h

/-! ### The obligations -/

/-- Settles O2: a decoded word is not refused, so it encodes an instruction, which is the one it decodes to. -/
theorem encodeAfterDecodeIsIdentity : Obligations.EncodeAfterDecodeIsIdentity := by
  intro w i hdecode
  obtain ⟨j, rfl⟩ | herror := encode_or_unknown w
  · cases (decodeWord_encode j).symm.trans hdecode
    rfl
  · cases herror.symm.trans hdecode

/-- Settles O3: the legal words are the encoder's, and the decoder reads those back and refuses the rest. -/
theorem decodeAcceptsExactlyTheTable : Obligations.DecodeAcceptsExactlyTheTable := by
  refine fun w => ⟨fun hlegal => ?_, decodeWord_of_not_legal⟩
  obtain ⟨i, rfl⟩ := (legalWord_iff w).1 hlegal
  exact ⟨i, decodeWord_encode i, i.row_mem, row_accepts_encode i⟩

/-- Settles O4: a word of two rows would encode an instruction of each, and the encoder is injective. -/
theorem tableRowsAreDisjoint : Obligations.TableRowsAreDisjoint := by
  intro w r q hr hq hwr hwq
  obtain ⟨i, rfl, rfl⟩ := exists_encode_of_accepts hr hwr
  obtain ⟨j, hij, rfl⟩ := exists_encode_of_accepts hq hwq
  have hok : decodeWord (encode j) = .ok i := by rw [hij, decodeWord_encode]
  cases (decodeWord_encode j).symm.trans hok
  rfl

/-- Settles O6: each word is evaluated. -/
theorem sampleWordsDecode : Obligations.SampleWordsDecode := by
  unfold Obligations.SampleWordsDecode
  decide

end Sys2Proof
end

section
/-! What an instruction does in closed form: the fault the table expects, or else its completed state
(30_encoding.md R83, 60_exceptions.md R240). -/

namespace Sys2Proof.Machine

/-! ### Completed states of the instructions that loop or branch -/

/-- After a return: the newest entry popped into `pc`, if there is one (40_sys_jump_call.md R101). -/
def State.returned (s : State) : State :=
  if h : 0 < s.sp.val then
    { s with pc := s.stack[s.sp.val - 1]'(by omega), sp := ⟨s.sp.val - 1, by omega⟩ }
  else s

/-- After a call with room on the stack (40_sys_jump_call.md R103). -/
def State.called (s : State) (nnn : BitVec 12) : State :=
  if h : s.sp.val < 16 then
    { s with stack := s.stack.set s.sp.val s.pc, sp := ⟨s.sp.val + 1, by omega⟩, pc := addressOf nnn }
  else s

/-- After the key scan: the lowest key that is down, or the fetch advance undone (46_misc.md R211). -/
def State.keyWaited (s : State) (x : RegIdx) : State :=
  match s.lowestKey with
  | some k => s.setV x (BitVec.ofNat 8 k)
  | none => s.setPc (s.pc - 2)

/-- The display under a sprite: every pixel XORed with the sprite bit that falls on it (44_draw.md R180). -/
def State.drawnDisplay (s : State) (x0 y0 n : Nat) : Display :=
  Vector.ofFn fun py => Vector.ofFn fun px => s.pixel px.val py.val ^^ s.spriteBit x0 y0 n px.val py.val

/-- A sprite bit of 1 falls on a lit pixel (44_draw.md R180). -/
def State.collides (s : State) (x0 y0 n : Nat) : Bool :=
  decide (∃ (px : Fin 64) (py : Fin 32), s.pixel px.val py.val = true ∧ s.spriteBit x0 y0 n px.val py.val = true)

/-- After a draw (44_draw.md R180). -/
def State.drawn (s : State) (x y : RegIdx) (n : Fin 16) : State :=
  (s.setDisplay (s.drawnDisplay (s.originX x) (s.originY y) n.val)).setFlag
    (s.collides (s.originX x) (s.originY y) n.val)

/-- After a block of bytes is stored at `index` (20_memory.md R56). -/
def State.stored (s : State) (bs : List Byte) : State :=
  { s with mem := s.mem.writeList s.params.font s.dataAddress bs }

/-- After `V[0]` to `V[x]` are loaded from `index` (46_misc.md R218). -/
def State.regsLoaded (s : State) (x : RegIdx) : State :=
  { s with v := Vector.ofFn fun j => if j ≤ x then s.byteAt (s.dataAddress + j.val) else s.getV j }

/-- The state an instruction that begins in `s` and raises nothing ends in. -/
def State.completed (s : State) : Instr → State
  | .cls => s.setDisplay Display.dark
  | .ret => s.returned
  | .jp nnn => s.setPc (addressOf nnn)
  | .call nnn => s.called nnn
  | .seImm x nn => s.skipIf (s.getV x == nn)
  | .sneImm x nn => s.skipIf (s.getV x != nn)
  | .seReg x y => s.skipIf (s.getV x == s.getV y)
  | .sneReg x y => s.skipIf (s.getV x != s.getV y)
  | .ldImm x nn => s.setV x nn
  | .addImm x nn => s.setV x (s.getV x + nn)
  | .ldReg x y => s.setV x (s.getV y)
  | .orReg x y => s.setV x (s.getV x ||| s.getV y)
  | .andReg x y => s.setV x (s.getV x &&& s.getV y)
  | .xorReg x y => s.setV x (s.getV x ^^^ s.getV y)
  | .addReg x y => s.writeRF x (s.getV x + s.getV y) (carryOut (s.getV x) (s.getV y))
  | .subReg x y => s.writeRF x (s.getV x - s.getV y) (notBorrow (s.getV x) (s.getV y))
  | .subnReg x y => s.writeRF x (s.getV y - s.getV x) (notBorrow (s.getV y) (s.getV x))
  | .shr x y => s.writeRF x (s.shiftSource x y >>> 1) (bitOutRight (s.shiftSource x y))
  | .shl x y => s.writeRF x (s.shiftSource x y <<< 1) (bitOutLeft (s.shiftSource x y))
  | .ldIndex nnn => s.setIndex (addressOf nnn)
  | .jpOffset nnn => s.setPc (addressOf nnn + wideByte (s.jumpOffset nnn))
  | .rnd x nn => s.nextDraw.setV x (s.randIn &&& nn)
  | .drw x y n => s.drawn x y n
  | .skp x => s.skipIf (s.keyDown (s.getV x).toNat)
  | .sknp x => s.skipIf (!s.keyDown (s.getV x).toNat)
  | .ldFromDelay x => s.setV x s.delay
  | .ldKey x => s.keyWaited x
  | .ldDelay x => s.setDelay (s.getV x)
  | .ldSound x => s.setSound (s.getV x)
  | .addIndex x =>
    (s.setIndex (s.index + wideByte (s.getV x))).setFlag (indexRange (s.index + wideByte (s.getV x)))
  | .ldGlyph x => s.setIndex (glyphAddress (s.getV x).toNat)
  | .storeBcd x => s.stored (bcdDigits (s.getV x))
  | .storeRegs x => (s.stored (s.regsUpTo x)).advanceIndex x
  | .loadRegs x => (s.regsLoaded x).advanceIndex x

/-! ### The closed forms are what the loops compute -/

@[simp] theorem State.getV_regsLoaded (s : State) (x j : RegIdx) :
    (s.regsLoaded x).getV j = if j ≤ x then s.byteAt (s.dataAddress + j.val) else s.getV j :=
  Vector.getElem_ofFn ..

/-- A block load of registers, byte by byte or at once. -/
theorem State.setVs_eq_regsLoaded (s : State) (x : RegIdx) :
    s.setVs 0 ((List.range' s.dataAddress (x.val + 1)).map s.byteAt) = s.regsLoaded x := by
  have hv : (s.setVs 0 ((List.range' s.dataAddress (x.val + 1)).map s.byteAt)).v = (s.regsLoaded x).v := by
    refine RegFile.ext_getV fun j => ?_
    rw [State.getV_setVs]
    simp
  rw [State.setVs_only, hv]
  rfl

/-- On the screen, the bits the row loop draws are the sprite's. -/
theorem State.rowsBit_eq_spriteBit (s : State) (x0 y0 n : Nat) {px py : Nat} (hx : px < 64) (hy : py < 32) :
    s.rowsBit x0 y0 n 0 px py = s.spriteBit x0 y0 n px py := by
  simp only [State.rowsBit, columnBit, State.spriteBit, hx, hy, decide_true, Bool.and_true, Nat.add_zero]
  simp only [Bool.and_assoc, Bool.and_comm, Bool.and_left_comm]

/-- Off the screen the row loop draws nothing. -/
theorem State.on_screen_of_rowsBit {s : State} {x0 y0 n px py : Nat} (h : s.rowsBit x0 y0 n 0 px py = true) :
    px < 64 ∧ py < 32 := by
  simp only [State.rowsBit, columnBit, Bool.and_eq_true, decide_eq_true_eq] at h
  obtain ⟨⟨-, hy⟩, ⟨-, hx⟩, -⟩ := h
  exact ⟨hx, hy⟩

theorem State.pixel_drawnDisplay (s : State) (x0 y0 n : Nat) {px py : Nat} (hx : px < 64) (hy : py < 32) :
    Display.pixel (s.drawnDisplay x0 y0 n) px py = (s.pixel px py ^^ s.spriteBit x0 y0 n px py) := by
  simp [Display.pixel, State.drawnDisplay, hx, hy]

theorem State.collides_iff (s : State) (x0 y0 n : Nat) : s.collides x0 y0 n = true ↔
    ∃ px py, px < 64 ∧ py < 32 ∧ s.pixel px py = true ∧ s.spriteBit x0 y0 n px py = true := by
  rw [State.collides, decide_eq_true_iff]
  constructor
  · rintro ⟨px, py, hlit, hbit⟩
    exact ⟨px, py, px.isLt, py.isLt, hlit, hbit⟩
  · rintro ⟨px, py, hx, hy, hlit, hbit⟩
    exact ⟨⟨px, hx⟩, ⟨py, hy⟩, hlit, hbit⟩

/-- The row loop, when every drawn row can be read. -/
theorem State.drawRows_eq_drawn (s : State) (x0 y0 n : Nat)
    (hread : drawnRows y0 n = 0 ∨ s.dataAddress + drawnRows y0 n ≤ memorySize) :
    s.drawRows x0 y0 n 0 (s.display, false) = .ok (s.drawnDisplay x0 y0 n, s.collides x0 y0 n) := by
  obtain ⟨⟨d, hit⟩, hrows, hpixel, hhit⟩ := s.drawRows_ok x0 y0 n 0 (s.display, false) fun r _ hn hy => by
    simp only [drawnRows, State.dataAddress] at hread; omega
  have hdisplay : d = s.drawnDisplay x0 y0 n := Display.ext_pixel fun px py hx hy => by
    rw [s.pixel_drawnDisplay x0 y0 n hx hy, ← s.rowsBit_eq_spriteBit x0 y0 n hx hy]
    exact hpixel px py
  have hcollide : hit = s.collides x0 y0 n := by
    rw [Bool.eq_iff_iff, hhit, s.collides_iff]
    constructor
    · rintro (h | ⟨px, py, hbit, hlit⟩)
      · cases h
      · obtain ⟨hx, hy⟩ := State.on_screen_of_rowsBit hbit
        exact ⟨px, py, hx, hy, hlit, s.rowsBit_eq_spriteBit x0 y0 n hx hy ▸ hbit⟩
    · rintro ⟨px, py, hx, hy, hlit, hbit⟩
      exact .inr ⟨px, py, (s.rowsBit_eq_spriteBit x0 y0 n hx hy).trans hbit, hlit⟩
  rw [hrows, hdisplay, hcollide]

/-! ### Raise or complete -/

/-- What an instruction answers, from the fault it meets and the state it ends in without one. -/
def State.raiseOr (s : State) (f : Option Raised) (t : State) : Result := f.elim (.next t) s.raise

theorem exec_drw_eq (x y : RegIdx) (n : Fin 16) (s : State) :
    exec (.drw x y n) s = s.raiseOr (expectedFault s (.drw x y n)) (s.drawn x y n) := by
  change execDrw x y n s = s.raiseOr (if drawnRows (s.originY y) n.val = 0 then none
    else overrun s.dataAddress (drawnRows (s.originY y) n.val)) (s.drawn x y n)
  unfold execDrw overrun
  split_ifs with hnone hfits
  · rw [s.drawRows_eq_drawn _ _ _ (.inl hnone)]
    rfl
  · rw [s.drawRows_eq_drawn _ _ _ (.inr hfits)]
    rfl
  · simp only [drawnRows, State.dataAddress] at hnone hfits
    have hfirst : s.index.toNat + (max s.index.toNat memorySize - s.index.toNat) = max s.index.toNat memorySize := by
      omega
    rw [s.drawRows_error _ _ _ 0 _ (max s.index.toNat memorySize - s.index.toNat) (by omega) (by omega) (by omega)
      (by omega) (by omega), hfirst]
    rfl

@[simp] theorem length_bcdDigits (b : Byte) : (bcdDigits b).length = 3 := rfl

/-- Every instruction raises the fault the table expects of it, or else completes. -/
theorem exec_eq (i : Instr) (s : State) : exec i s = s.raiseOr (expectedFault s i) (s.completed i) := by
  cases i with
  | cls | jp | ldImm | addImm | ldReg | orReg | andReg | xorReg | ldIndex | jpOffset | rnd | ldFromDelay | ldDelay
  | ldSound | addIndex => rfl
  | seImm | sneImm | seReg | sneReg | addReg | subReg | shr | subnReg | shl => rfl
  | drw x y n => exact exec_drw_eq x y n s
  | ret =>
    rw [exec, execRet, State.completed, State.returned]
    by_cases hsome : 0 < s.sp.val
    · rw [s.pop_eq hsome, dif_pos hsome]; rfl
    · rw [s.pop_empty (by omega), dif_neg hsome]; rfl
  | call nnn =>
    rw [exec, execCall, State.push, State.completed, State.called, expectedFault]
    split_ifs with hroom hfull hfull
    · omega
    · rfl
    · rfl
    · omega
  | ldKey x =>
    rw [exec, execLdKey, State.completed, State.keyWaited]
    cases s.lowestKey <;> rfl
  | skp x | sknp x =>
    dsimp only [exec, execSkp, execSknp, expectedFault]
    rw [s.smallNumber_eq]
    cases numberFault (s.getV x) .keyIndexRange <;> rfl
  | ldGlyph x =>
    rw [exec, execLdGlyph, s.smallNumber_eq, expectedFault]
    cases numberFault (s.getV x) .glyphIndexRange <;> rfl
  | storeBcd x =>
    have hne : bcdDigits (s.getV x) ≠ [] := List.cons_ne_nil _ _
    rw [exec, execStoreBcd, s.writeBytes_eq _ hne, length_bcdDigits, expectedFault, State.dataAddress]
    cases storeFault s.index.toNat 3 <;> rfl
  | storeRegs x =>
    have hne : s.regsUpTo x ≠ [] := List.ne_nil_of_length_pos (by simp)
    rw [exec, execStoreRegs, s.writeBytes_eq _ hne, s.length_regsUpTo, expectedFault, State.dataAddress]
    cases storeFault s.index.toNat (x.val + 1) <;> rfl
  | loadRegs x =>
    rw [exec, execLoadRegs, s.readBytes_eq _ (Nat.succ_pos _), expectedFault, State.completed,
      ← s.setVs_eq_regsLoaded x, State.dataAddress]
    cases overrun s.index.toNat (x.val + 1) <;> rfl

theorem exec_of_fault {i : Instr} {s : State} {r : Raised} (h : expectedFault s i = some r) :
    exec i s = s.raise r := by
  rw [exec_eq, h]; rfl

theorem exec_of_no_fault {i : Instr} {s : State} (h : expectedFault s i = none) :
    exec i s = .next (s.completed i) := by
  rw [exec_eq, h]; rfl

/-- The two ends of an instruction: raised, or completed. -/
theorem exec_cases {i : Instr} {s t : State} (h : exec i s = .next t) :
    (∃ r, expectedFault s i = some r ∧ t = { s with pc := s.pc - 2, fault := some (raisedRecord s r) }) ∨
    (expectedFault s i = none ∧ t = s.completed i) := by
  cases hf : expectedFault s i with
  | some r =>
    cases h.symm.trans (exec_of_fault hf)
    exact .inl ⟨r, rfl, rfl⟩
  | none =>
    cases h.symm.trans (exec_of_no_fault hf)
    exact .inr ⟨rfl, rfl⟩

end Sys2Proof.Machine
end

section
/-! What a completed instruction leaves unchanged, field by field (10_state.md R38). -/

namespace Sys2Proof.Machine

variable (s : State)

/-! ### `State.returned` -/

@[simp] theorem State.returned_v : (s.returned).v = s.v := by
  unfold State.returned; split <;> rfl

@[simp] theorem State.returned_index : (s.returned).index = s.index := by
  unfold State.returned; split <;> rfl

@[simp] theorem State.returned_stack : (s.returned).stack = s.stack := by
  unfold State.returned; split <;> rfl

@[simp] theorem State.returned_delay : (s.returned).delay = s.delay := by
  unfold State.returned; split <;> rfl

@[simp] theorem State.returned_sound : (s.returned).sound = s.sound := by
  unfold State.returned; split <;> rfl

@[simp] theorem State.returned_keypad : (s.returned).keypad = s.keypad := by
  unfold State.returned; split <;> rfl

@[simp] theorem State.returned_display : (s.returned).display = s.display := by
  unfold State.returned; split <;> rfl

@[simp] theorem State.returned_mem : (s.returned).mem = s.mem := by
  unfold State.returned; split <;> rfl

@[simp] theorem State.returned_opcode : (s.returned).opcode = s.opcode := by
  unfold State.returned; split <;> rfl

@[simp] theorem State.returned_fault : (s.returned).fault = s.fault := by
  unfold State.returned; split <;> rfl

@[simp] theorem State.returned_keypadIn : (s.returned).keypadIn = s.keypadIn := by
  unfold State.returned; split <;> rfl

@[simp] theorem State.returned_cfgIn : (s.returned).cfgIn = s.cfgIn := by
  unfold State.returned; split <;> rfl

@[simp] theorem State.returned_randIn : (s.returned).randIn = s.randIn := by
  unfold State.returned; split <;> rfl

@[simp] theorem State.returned_draws : (s.returned).draws = s.draws := by
  unfold State.returned; split <;> rfl

@[simp] theorem State.returned_params : (s.returned).params = s.params := by
  unfold State.returned; split <;> rfl

/-! ### `State.called` -/

@[simp] theorem State.called_v (nnn : BitVec 12) : (s.called nnn).v = s.v := by
  unfold State.called; split <;> rfl

@[simp] theorem State.called_index (nnn : BitVec 12) : (s.called nnn).index = s.index := by
  unfold State.called; split <;> rfl

@[simp] theorem State.called_delay (nnn : BitVec 12) : (s.called nnn).delay = s.delay := by
  unfold State.called; split <;> rfl

@[simp] theorem State.called_sound (nnn : BitVec 12) : (s.called nnn).sound = s.sound := by
  unfold State.called; split <;> rfl

@[simp] theorem State.called_keypad (nnn : BitVec 12) : (s.called nnn).keypad = s.keypad := by
  unfold State.called; split <;> rfl

@[simp] theorem State.called_display (nnn : BitVec 12) : (s.called nnn).display = s.display := by
  unfold State.called; split <;> rfl

@[simp] theorem State.called_mem (nnn : BitVec 12) : (s.called nnn).mem = s.mem := by
  unfold State.called; split <;> rfl

@[simp] theorem State.called_opcode (nnn : BitVec 12) : (s.called nnn).opcode = s.opcode := by
  unfold State.called; split <;> rfl

@[simp] theorem State.called_fault (nnn : BitVec 12) : (s.called nnn).fault = s.fault := by
  unfold State.called; split <;> rfl

@[simp] theorem State.called_keypadIn (nnn : BitVec 12) : (s.called nnn).keypadIn = s.keypadIn := by
  unfold State.called; split <;> rfl

@[simp] theorem State.called_cfgIn (nnn : BitVec 12) : (s.called nnn).cfgIn = s.cfgIn := by
  unfold State.called; split <;> rfl

@[simp] theorem State.called_randIn (nnn : BitVec 12) : (s.called nnn).randIn = s.randIn := by
  unfold State.called; split <;> rfl

@[simp] theorem State.called_draws (nnn : BitVec 12) : (s.called nnn).draws = s.draws := by
  unfold State.called; split <;> rfl

@[simp] theorem State.called_params (nnn : BitVec 12) : (s.called nnn).params = s.params := by
  unfold State.called; split <;> rfl

/-! ### `State.keyWaited` -/

@[simp] theorem State.keyWaited_index (x : RegIdx) : (s.keyWaited x).index = s.index := by
  unfold State.keyWaited; split <;> rfl

@[simp] theorem State.keyWaited_stack (x : RegIdx) : (s.keyWaited x).stack = s.stack := by
  unfold State.keyWaited; split <;> rfl

@[simp] theorem State.keyWaited_sp (x : RegIdx) : (s.keyWaited x).sp = s.sp := by
  unfold State.keyWaited; split <;> rfl

@[simp] theorem State.keyWaited_delay (x : RegIdx) : (s.keyWaited x).delay = s.delay := by
  unfold State.keyWaited; split <;> rfl

@[simp] theorem State.keyWaited_sound (x : RegIdx) : (s.keyWaited x).sound = s.sound := by
  unfold State.keyWaited; split <;> rfl

@[simp] theorem State.keyWaited_keypad (x : RegIdx) : (s.keyWaited x).keypad = s.keypad := by
  unfold State.keyWaited; split <;> rfl

@[simp] theorem State.keyWaited_display (x : RegIdx) : (s.keyWaited x).display = s.display := by
  unfold State.keyWaited; split <;> rfl

@[simp] theorem State.keyWaited_mem (x : RegIdx) : (s.keyWaited x).mem = s.mem := by
  unfold State.keyWaited; split <;> rfl

@[simp] theorem State.keyWaited_opcode (x : RegIdx) : (s.keyWaited x).opcode = s.opcode := by
  unfold State.keyWaited; split <;> rfl

@[simp] theorem State.keyWaited_fault (x : RegIdx) : (s.keyWaited x).fault = s.fault := by
  unfold State.keyWaited; split <;> rfl

@[simp] theorem State.keyWaited_keypadIn (x : RegIdx) : (s.keyWaited x).keypadIn = s.keypadIn := by
  unfold State.keyWaited; split <;> rfl

@[simp] theorem State.keyWaited_cfgIn (x : RegIdx) : (s.keyWaited x).cfgIn = s.cfgIn := by
  unfold State.keyWaited; split <;> rfl

@[simp] theorem State.keyWaited_randIn (x : RegIdx) : (s.keyWaited x).randIn = s.randIn := by
  unfold State.keyWaited; split <;> rfl

@[simp] theorem State.keyWaited_draws (x : RegIdx) : (s.keyWaited x).draws = s.draws := by
  unfold State.keyWaited; split <;> rfl

@[simp] theorem State.keyWaited_params (x : RegIdx) : (s.keyWaited x).params = s.params := by
  unfold State.keyWaited; split <;> rfl

/-! ### Return and call, by case -/

theorem State.returned_of_pos (h : 0 < s.sp.val) : s.returned =
    { s with pc := s.stack[s.sp.val - 1]'(by omega), sp := ⟨s.sp.val - 1, by omega⟩ } := dif_pos h

theorem State.returned_of_empty (h : ¬ 0 < s.sp.val) : s.returned = s := dif_neg h

theorem State.called_of_room (nnn : BitVec 12) (h : s.sp.val < 16) : s.called nnn =
    { s with stack := s.stack.set s.sp.val s.pc, sp := ⟨s.sp.val + 1, by omega⟩, pc := addressOf nnn } := dif_pos h

theorem State.called_of_full (nnn : BitVec 12) (h : ¬ s.sp.val < 16) : s.called nnn = s := dif_neg h

/-! ### A completed instruction -/

/-- No instruction that completes changes the sampled keypad, the latch, the fault record, the ports `keypad_in` and
`cfg_in` or the parameters. -/
theorem completed_frame (i : Instr) : (s.completed i).keypad = s.keypad ∧ (s.completed i).opcode = s.opcode ∧
    (s.completed i).fault = s.fault ∧ (s.completed i).keypadIn = s.keypadIn ∧ (s.completed i).cfgIn = s.cfgIn ∧
    (s.completed i).params = s.params := by
  cases i with
  | cls | jp | ldImm | addImm | ldReg | orReg | andReg | xorReg | ldIndex | jpOffset | rnd | ldFromDelay
  | ldDelay | ldSound | addIndex | ldGlyph | storeBcd => exact ⟨rfl, rfl, rfl, rfl, rfl, rfl⟩
  | drw => simp [State.completed, State.drawn]
  | seImm | sneImm | seReg | sneReg | skp | sknp => simp [State.completed]
  | addReg | subReg | shr | subnReg | shl => simp [State.completed]
  | ret | call | ldKey => simp [State.completed]
  | storeRegs | loadRegs => simp [State.completed, State.stored, State.regsLoaded]

@[simp] theorem completed_keypad (i : Instr) : (s.completed i).keypad = s.keypad := by
  obtain ⟨h, -, -, -, -, -⟩ := completed_frame s i
  exact h

@[simp] theorem completed_opcode (i : Instr) : (s.completed i).opcode = s.opcode := by
  obtain ⟨-, h, -, -, -, -⟩ := completed_frame s i
  exact h

@[simp] theorem completed_fault (i : Instr) : (s.completed i).fault = s.fault := by
  obtain ⟨-, -, h, -, -, -⟩ := completed_frame s i
  exact h

@[simp] theorem completed_keypadIn (i : Instr) : (s.completed i).keypadIn = s.keypadIn := by
  obtain ⟨-, -, -, h, -, -⟩ := completed_frame s i
  exact h

@[simp] theorem completed_cfgIn (i : Instr) : (s.completed i).cfgIn = s.cfgIn := by
  obtain ⟨-, -, -, -, h, -⟩ := completed_frame s i
  exact h

@[simp] theorem completed_params (i : Instr) : (s.completed i).params = s.params := by
  obtain ⟨-, -, -, -, -, h⟩ := completed_frame s i
  exact h

/-- Settles O14: an instruction raises the table's fault or completes, and completing keeps the record. -/
theorem instructionsRaiseExactlyAsTabled : Obligations.InstructionsRaiseExactlyAsTabled :=
  fun i s => ⟨fun _ hraise => exec_of_fault hraise,
    fun hnone => ⟨s.completed i, exec_of_no_fault hnone, completed_fault s i⟩⟩

end Sys2Proof.Machine
end

section
/-! What a step does in closed form: the fault it meets, or else its instruction's completed state and the tick
(30_encoding.md R83, 60_exceptions.md R241). -/

namespace Sys2Proof.Machine

/-! ### The fault of a step -/

/-- The record a step of an unfaulted machine leaves, if it faults: of the fetch, of the decoder or of the
instruction (60_exceptions.md R240). -/
def State.stepFault (s : State) : Option FaultRecord :=
  match s.fetch with
  | .error r => some ⟨r.kind, s.pc, none, r.detail⟩
  | .ok w =>
    match decodeWord w with
    | .error _ => some ⟨.unknownOpcode, s.pc, some w, w.toNat⟩
    | .ok i => (expectedFault (s.begin w) i).map fun r => ⟨r.kind, s.pc, some w, r.detail⟩

theorem State.stepFault_of_execute {s : State} {w : Word} {i : Instr} (hfetch : s.fetch = .ok w)
    (hdecode : decodeWord w = .ok i) :
    s.stepFault = (expectedFault (s.begin w) i).map fun r => ⟨r.kind, s.pc, some w, r.detail⟩ := by
  simp [State.stepFault, hfetch, hdecode]

theorem step_of_completed {s : State} {w : Word} {i : Instr} (hfault : s.fault = none) (hfetch : s.fetch = .ok w)
    (hdecode : decodeWord w = .ok i) (hnone : expectedFault (s.begin w) i = none) :
    step s = .next ((s.begin w).completed i).endOfStep :=
  step_completed hfault hfetch hdecode (exec_of_no_fault hnone) ((completed_fault _ i).trans hfault)

/-- The three ends of a step: quiescent, faulting with the record as the only change, or completed. -/
theorem step_ends (s : State) :
    (∃ r, s.fault = some r ∧ step s = .next s) ∨
    (∃ r, s.fault = none ∧ s.stepFault = some r ∧ step s = .next { s with fault := some r }) ∨
    (∃ w i, s.fault = none ∧ s.stepFault = none ∧ s.fetch = .ok w ∧ decodeWord w = .ok i ∧
      expectedFault (s.begin w) i = none ∧ step s = .next ((s.begin w).completed i).endOfStep) := by
  obtain ⟨r, hr, h⟩ | ⟨r, hfault, hfetch, h⟩ | ⟨w, e, hfault, hfetch, hdecode, h⟩ |
    ⟨w, i, hfault, hfetch, hdecode, h⟩ := step_cases s
  · exact .inl ⟨r, hr, h⟩
  · exact .inr (.inl ⟨_, hfault, by simp [State.stepFault, hfetch], h⟩)
  · exact .inr (.inl ⟨_, hfault, by simp [State.stepFault, hfetch, hdecode, decodeRaises], h⟩)
  · have hstep := State.stepFault_of_execute hfetch hdecode
    cases hf : expectedFault (s.begin w) i with
    | none =>
      rw [hf] at hstep
      exact .inr (.inr ⟨w, i, hfault, hstep, hfetch, hdecode, hf, step_of_completed hfault hfetch hdecode hf⟩)
    | some r =>
      rw [hf] at hstep
      have hpc : s.pc + 2 - 2 = s.pc := BitVec.add_sub_cancel ..
      rw [exec_of_fault hf, State.raise_eq, State.finishResult, State.finish_fault s rfl, raisedRecord,
        State.begin_pc, hpc] at h
      exact .inr (.inl ⟨_, hfault, hstep, h⟩)

theorem step_of_stepFault {s : State} {r : FaultRecord} (hfault : s.fault = none) (hr : s.stepFault = some r) :
    step s = .next { s with fault := some r } := by
  obtain ⟨q, hq, -⟩ | ⟨q, -, hq, hstep⟩ | ⟨w, i, -, hnone, -⟩ := step_ends s
  · cases hfault.symm.trans hq
  · cases hr.symm.trans hq
    exact hstep
  · cases hr.symm.trans hnone

/-- `step_ends` for a step known to answer `t`. -/
theorem step_next_cases {s t : State} (h : step s = .next t) :
    (∃ r, s.fault = some r ∧ t = s) ∨
    (∃ r, s.fault = none ∧ s.stepFault = some r ∧ t = { s with fault := some r }) ∨
    (∃ w i, s.fault = none ∧ s.stepFault = none ∧ s.fetch = .ok w ∧ decodeWord w = .ok i ∧
      expectedFault (s.begin w) i = none ∧ t = ((s.begin w).completed i).endOfStep) := by
  obtain ⟨r, hr, hstep⟩ | ⟨r, hfault, hr, hstep⟩ | ⟨w, i, hfault, hnone, hfetch, hdecode, hf, hstep⟩ := step_ends s
  · cases h.symm.trans hstep
    exact .inl ⟨r, hr, rfl⟩
  · cases h.symm.trans hstep
    exact .inr (.inl ⟨r, hfault, hr, rfl⟩)
  · cases h.symm.trans hstep
    exact .inr (.inr ⟨w, i, hfault, hnone, hfetch, hdecode, hf, rfl⟩)

/-! ### What a fault record says -/

theorem overrun_bounds {a n : Nat} {r : Raised} (ha : a < 2 ^ 16) (h : overrun a n = some r) :
    r.kind ≠ .outOfBoundsFetch ∧ r.detail < 2 ^ 16 := by
  unfold overrun at h
  split_ifs at h
  cases h
  exact ⟨nofun, max_lt ha (by decide)⟩

theorem storeFault_bounds {a n : Nat} {r : Raised} (ha : a < 2 ^ 16) (h : storeFault a n = some r) :
    r.kind ≠ .outOfBoundsFetch ∧ r.detail < 2 ^ 16 := by
  unfold storeFault at h
  split_ifs at h
  · cases h
    exact ⟨nofun, ha⟩
  · exact overrun_bounds ha h

theorem numberFault_bounds {b : Byte} {k : Fault} {r : Raised} (hk : k ≠ .outOfBoundsFetch)
    (h : numberFault b k = some r) : r.kind ≠ .outOfBoundsFetch ∧ r.detail < 2 ^ 16 := by
  unfold numberFault at h
  split_ifs at h
  cases h
  exact ⟨hk, b.isLt.trans (by decide)⟩

/-- No instruction raises the fetch's fault, and every detail is an address or a smaller number. -/
theorem expectedFault_bounds {s : State} {i : Instr} {r : Raised} (h : expectedFault s i = some r) :
    r.kind ≠ .outOfBoundsFetch ∧ r.detail < 2 ^ 16 := by
  have hindex : s.index.toNat < 2 ^ 16 := s.index.isLt
  cases i with
  | call nnn =>
    rw [expectedFault] at h
    split_ifs at h
    cases h
    exact ⟨nofun, nnn.isLt.trans (by decide)⟩
  | drw x y n =>
    rw [expectedFault] at h
    split_ifs at h
    exact overrun_bounds hindex h
  | skp | sknp => exact numberFault_bounds (k := .keyIndexRange) nofun h
  | ldGlyph => exact numberFault_bounds (k := .glyphIndexRange) nofun h
  | storeBcd | storeRegs => exact storeFault_bounds hindex h
  | loadRegs => exact overrun_bounds hindex h
  | _ => cases h

/-- A fetch reads the word at `pc`, or raises because it lies past memory. -/
theorem State.fetch_cases (s : State) :
    (memorySize ≤ s.pc.toNat + 1 ∧ s.fetch = .error ⟨.outOfBoundsFetch, s.pc.toNat⟩) ∨
    (s.pc.toNat + 1 < memorySize ∧ s.fetch = .ok (s.wordAt s.pc.toNat)) :=
  (Nat.lt_or_ge (s.pc.toNat + 1) memorySize).symm.imp (fun h => ⟨h, s.fetch_error h⟩) (fun h => ⟨h, s.fetch_ok h⟩)

/-- The record of a faulting step names the step's `pc`, and its word unless the fetch raised. -/
theorem State.stepFault_record {s : State} {r : FaultRecord} (h : s.stepFault = some r) :
    r.fetchPc = s.pc ∧ r.detail < 2 ^ 17 ∧ (r.word = none ↔ r.kind = .outOfBoundsFetch) ∧
    (r.kind ≠ .outOfBoundsFetch → r.word = some (s.wordAt s.pc.toNat)) := by
  have hpc := s.pc.isLt
  unfold State.stepFault at h
  obtain ⟨-, hfetch⟩ | ⟨-, hfetch⟩ := s.fetch_cases
  · rw [hfetch] at h
    cases h
    exact ⟨rfl, hpc.trans (by decide), iff_of_true rfl rfl, fun hk => absurd rfl hk⟩
  · rw [hfetch] at h
    cases hdecode : decodeWord (s.wordAt s.pc.toNat) with
    | error e =>
      simp only [hdecode] at h
      cases h
      exact ⟨rfl, (BitVec.isLt _).trans (by decide), iff_of_false nofun nofun, fun _ => rfl⟩
    | ok i =>
      simp only [hdecode, Option.map_eq_some_iff] at h
      obtain ⟨q, hq, rfl⟩ := h
      obtain ⟨hkind, hdetail⟩ := expectedFault_bounds hq
      exact ⟨rfl, hdetail.trans (by decide), iff_of_false nofun hkind, fun _ => rfl⟩

/-! ### The obligations -/

/-- Settles O8: the state an instruction begins in, then the tick of the mode, which no instruction changes, or the
step's beginning with the record. -/
theorem stepRunsTheDecodedInstruction : Obligations.StepRunsTheDecodedInstruction := by
  intro s t w i hfault hpc hw hdecode hexec
  have hfetch : s.fetch = .ok w := hw ▸ s.fetch_ok hpc
  have hbegin : exec i (s.begin w) = .next t := hexec
  have hmode : t.params = s.params := params_of_exec_begin hbegin
  refine ⟨fun r hr => ?_, fun ht hper => ?_, fun ht hext => ?_⟩
  · rw [step_execute hfault hfetch hdecode, hbegin, State.finishResult, s.finish_fault hr]
  · rw [step_completed hfault hfetch hdecode hbegin ht, State.endOfStep_perStep (hmode ▸ hper)]
  · rw [step_completed hfault hfetch hdecode hbegin ht, State.endOfStep_external (hmode ▸ hext)]

/-- Settles O9: a fetch past memory raises before the decoder runs, and an illegal word raises in it. -/
theorem fetchAndDecodeFaultsAreRecorded : Obligations.FetchAndDecodeFaultsAreRecorded := by
  refine ⟨fun s hfault hpc => step_fetch_error hfault (s.fetch_error hpc),
    fun s w hfault hpc hw hillegal => ?_, rfl, rfl⟩
  have hfetch : s.fetch = .ok w := hw ▸ s.fetch_ok hpc
  exact step_decode_error hfault hfetch (decodeWord_of_not_legal hillegal)

/-- Settles O10: each of the three ends of a step is a next state. -/
theorem stepAlwaysAnswersNext : Obligations.StepAlwaysAnswersNext := by
  intro s
  obtain ⟨r, -, h⟩ | ⟨r, -, -, h⟩ | ⟨w, i, -, -, -, -, -, h⟩ := step_ends s
  · exact ⟨_, h⟩
  · exact ⟨_, h⟩
  · exact ⟨_, h⟩

/-- Settles O11: of the three ends of a step only the second sets a record. -/
theorem faultingStepChangesOnlyTheRecord : Obligations.FaultingStepChangesOnlyTheRecord := by
  intro s t r hfault hstep hr
  obtain ⟨q, hq, -⟩ | ⟨q, -, hq, rfl⟩ | ⟨w, i, -, -, -, -, -, rfl⟩ := step_next_cases hstep
  · cases hfault.symm.trans hq
  · cases hr
    obtain ⟨hpc, -, hkind, hword⟩ := State.stepFault_record hq
    exact ⟨rfl, hpc, hkind, hword⟩
  · rw [State.endOfStep_fault, completed_fault, State.begin_fault, hfault] at hr
    cases hr

/-- After a step the record is the one there was, or else the fault of the step. -/
theorem fault_of_step {s t : State} (h : step s = .next t) : t.fault = s.fault.or s.stepFault := by
  obtain ⟨r, hr, rfl⟩ | ⟨r, hfault, hr, rfl⟩ | ⟨w, i, hfault, hnone, -, -, -, rfl⟩ := step_next_cases h
  · rw [hr]; rfl
  · rw [hfault, hr]; rfl
  · rw [State.endOfStep_fault, completed_fault, State.begin_fault, hfault, hnone]; rfl

/-- Settles O13: the fault of a step is read from registers, `index`, `pc`, `sp` and memory alone. -/
theorem faultsDoNotDependOnTheInputs : Obligations.FaultsDoNotDependOnTheInputs := by
  intro s t t' k q b n hstep hstep'
  exact (fault_of_step hstep').trans (fault_of_step hstep).symm

/-- Settles O42: a step that completes ends without a tick in External mode, and a tick request is one tick there. -/
theorem externalTicks : Obligations.ExternalTicks := by
  refine ⟨fun s t hmode hfault hstep ht => ?_, fun s hfault hmode => ?_, fun s hmode => ?_⟩
  · obtain ⟨w, i, u, hfetch, hdecode, hexec, -, rfl⟩ := exists_exec_of_step_completed hfault hstep ht
    have hmode' : u.params.timerTickSource = .external := by rw [params_of_exec_begin hexec, hmode]
    exact ⟨w, i, u, hfetch, hdecode, hexec, State.endOfStep_external hmode'⟩
  · simp [State.serve, State.externalTick, hfault, hmode]
  · cases hfault : s.fault <;> simp [State.serve, State.externalTick, hfault, hmode]

/-- Settles O41: each tick is one floored decrement of either timer. -/
theorem repeatedTicksReachZero : Obligations.RepeatedTicksReachZero := by
  intro k s
  induction k with
  | zero => exact ⟨rfl, rfl⟩
  | succ k ih =>
    obtain ⟨hdelay, hsound⟩ := ih
    rw [Function.iterate_succ_apply', State.timerTick_delay, State.timerTick_sound, toNat_tickDown, toNat_tickDown,
      hdelay, hsound]
    exact ⟨rfl, rfl⟩

end Sys2Proof.Machine
end

section
/-! Which instructions write what (10_state.md R21, R38), and that none writes the font region (20_memory.md R53). -/

namespace Sys2Proof.Machine

/-! ### Memory -/

theorem storeFault_eq_none {a n : Nat} (h : storeFault a n = none) : fontSize ≤ a ∧ a + n ≤ memorySize := by
  unfold storeFault overrun at h
  split_ifs at h with hfont hfits
  exact ⟨Nat.not_lt.1 hfont, hfits⟩

/-- A completed instruction leaves memory alone, or stores a block of writable bytes at `index`. -/
theorem completed_mem_cases {s : State} {i : Instr} (h : expectedFault s i = none) :
    (s.completed i).mem = s.mem ∨ ∃ bs : List Byte, fontSize ≤ s.dataAddress ∧
      s.dataAddress + bs.length ≤ memorySize ∧
      (s.completed i).mem = s.mem.writeList s.params.font s.dataAddress bs := by
  cases i with
  | storeBcd x =>
    obtain ⟨hfont, hfits⟩ := storeFault_eq_none h
    exact .inr ⟨bcdDigits (s.getV x), hfont, hfits, rfl⟩
  | storeRegs x =>
    obtain ⟨hfont, hfits⟩ := storeFault_eq_none h
    refine .inr ⟨s.regsUpTo x, hfont, by rw [s.length_regsUpTo]; exact hfits, ?_⟩
    rw [State.completed, State.advanceIndex_mem, State.stored]
  | _ => exact .inl (by simp [State.completed, State.drawn, State.regsLoaded])

/-- No completed instruction changes a byte of the font region. -/
theorem completed_byteAt_font {s : State} {i : Instr} (h : expectedFault s i = none) {a : Nat} (ha : a < fontSize) :
    (s.completed i).byteAt a = s.byteAt a := by
  obtain hmem | ⟨bs, hfont, -, hmem⟩ := completed_mem_cases h
  · exact State.byteAt_congr hmem (completed_params s i) a
  · rw [State.byteAt, hmem, completed_params]
    exact Memory.read_writeList_outside _ bs _ _ _ (.inl (ha.trans_le hfont))

/-- An address of the font region is unlisted, so it reads as FONT (20_memory.md R53). -/
theorem State.byteAt_font {s : State} (h : s.memoryInv) {a : Nat} (ha : a < fontSize) :
    s.byteAt a = s.params.font[a]'ha := by
  have hunlisted : s.mem.find a = none := Memory.find_eq_none fun c hc => ha.trans_le (h.2 c hc).1
  rw [State.byteAt, Memory.read, hunlisted, Option.getD_none, resetByte, dif_pos (show a < 80 from ha)]
  rfl

/-- Settles O43: a step stores only at and above the font region, whose bytes the invariant leaves unlisted. -/
theorem fontRegionIsNeverAltered : Obligations.FontRegionIsNeverAltered := by
  refine ⟨fun s t hstep a ha => ?_, fun s hinv a ha => ?_⟩
  · obtain ⟨r, -, rfl⟩ | ⟨r, -, -, rfl⟩ | ⟨w, i, -, -, -, -, hnone, rfl⟩ := step_next_cases hstep
    · rfl
    · rfl
    · exact (State.byteAt_congr (State.endOfStep_mem _) (State.endOfStep_params _) a).trans
        (completed_byteAt_font hnone ha)
  · rw [State.byteAt_font hinv.1 ha]
    exact Vector.getElem?_eq_getElem _

/-! ### The access matrix -/

section
variable {s : State} {i : Instr}

theorem completed_display (h : (s.completed i).display ≠ s.display) : i = .cls ∨ ∃ x y n, i = .drw x y n := by
  cases i with
  | cls => exact .inl rfl
  | drw x y n => exact .inr ⟨x, y, n, rfl⟩
  | _ => exact absurd (by simp [State.completed, State.stored, State.regsLoaded]) h

theorem completed_stack (h : (s.completed i).stack ≠ s.stack) : ∃ nnn, i = .call nnn := by
  cases i with
  | call nnn => exact ⟨nnn, rfl⟩
  | _ => exact absurd (by simp [State.completed, State.drawn, State.stored, State.regsLoaded]) h

theorem completed_sp (h : (s.completed i).sp ≠ s.sp) : i = .ret ∨ ∃ nnn, i = .call nnn := by
  cases i with
  | ret => exact .inl rfl
  | call nnn => exact .inr ⟨nnn, rfl⟩
  | _ => exact absurd (by simp [State.completed, State.drawn, State.stored, State.regsLoaded]) h

/-- Only under the increment quirk do the block transfers move `index`. -/
theorem completed_index (h : (s.completed i).index ≠ s.index) :
    (∃ nnn, i = .ldIndex nnn) ∨ (∃ x, i = .addIndex x ∨ i = .ldGlyph x) ∨
      (s.cfgIn.indexIncrementQuirk = true ∧ ∃ x, i = .storeRegs x ∨ i = .loadRegs x) := by
  cases i with
  | ldIndex nnn => exact .inl ⟨nnn, rfl⟩
  | addIndex x => exact .inr (.inl ⟨x, .inl rfl⟩)
  | ldGlyph x => exact .inr (.inl ⟨x, .inr rfl⟩)
  | storeRegs x =>
    refine .inr (.inr ⟨by_contra fun hquirk => h ?_, x, .inl rfl⟩)
    simp [State.completed, State.stored, hquirk]
  | loadRegs x =>
    refine .inr (.inr ⟨by_contra fun hquirk => h ?_, x, .inr rfl⟩)
    simp [State.completed, State.regsLoaded, hquirk]
  | _ => exact absurd (by simp [State.completed, State.drawn, State.stored]) h

theorem completed_mem (h : (s.completed i).mem ≠ s.mem) : ∃ x, i = .storeBcd x ∨ i = .storeRegs x := by
  cases i with
  | storeBcd x => exact ⟨x, .inl rfl⟩
  | storeRegs x => exact ⟨x, .inr rfl⟩
  | _ => exact absurd (by simp [State.completed, State.drawn, State.regsLoaded]) h

theorem completed_delay (h : (s.completed i).delay ≠ s.delay) : ∃ x, i = .ldDelay x := by
  cases i with
  | ldDelay x => exact ⟨x, rfl⟩
  | _ => exact absurd (by simp [State.completed, State.drawn, State.stored, State.regsLoaded]) h

theorem completed_sound (h : (s.completed i).sound ≠ s.sound) : ∃ x, i = .ldSound x := by
  cases i with
  | ldSound x => exact ⟨x, rfl⟩
  | _ => exact absurd (by simp [State.completed, State.drawn, State.stored, State.regsLoaded]) h

theorem completed_random (h : (s.completed i).randIn ≠ s.randIn ∨ (s.completed i).draws ≠ s.draws) :
    ∃ x nn, i = .rnd x nn := by
  cases i with
  | rnd x nn => exact ⟨x, nn, rfl⟩
  | _ => exact absurd h (by simp [State.completed, State.drawn, State.stored, State.regsLoaded])

end

/-- Settles O44: an instruction that raises changes `pc` and the record alone, and one that completes changes each
element only where the lemmas above say so. -/
theorem accessMatrixWrites : Obligations.AccessMatrixWrites := by
  intro i s t hexec
  obtain ⟨r, -, rfl⟩ | ⟨-, rfl⟩ := exec_cases hexec
  · exact ⟨absurd rfl, absurd rfl, absurd rfl, absurd rfl, fun ⟨_, h⟩ => absurd rfl h, absurd rfl, absurd rfl,
      fun h => h.elim (absurd rfl) (absurd rfl), rfl, rfl, rfl, rfl, rfl⟩
  · refine ⟨completed_display, completed_stack, completed_sp, completed_index, fun ⟨a, h⟩ => ?_,
      completed_delay, completed_sound, completed_random, completed_keypad s i, completed_opcode s i,
      completed_keypadIn s i, completed_cfgIn s i, completed_params s i⟩
    exact completed_mem fun hmem => h (State.byteAt_congr hmem (completed_params s i) a)

/-! ### Registers -/

section
variable (s : State)

/-- A register read depends on the register file alone. -/
theorem State.getV_congr {s t : State} (h : t.v = s.v) (r : RegIdx) : t.getV r = s.getV r := by
  rw [State.getV, h, State.getV]

@[simp] theorem State.getV_returned (r : RegIdx) : s.returned.getV r = s.getV r := State.getV_congr s.returned_v r

@[simp] theorem State.getV_called (nnn : BitVec 12) (r : RegIdx) : (s.called nnn).getV r = s.getV r :=
  State.getV_congr (s.called_v nnn) r

@[simp] theorem State.getV_stored (bs : List Byte) (r : RegIdx) : (s.stored bs).getV r = s.getV r := rfl

theorem State.getV_keyWaited_of_ne {x r : RegIdx} (h : r ≠ x) : (s.keyWaited x).getV r = s.getV r := by
  unfold State.keyWaited
  split
  · rw [State.getV_setV, if_neg h]
  · rfl

theorem State.getV_writeRF_of_ne {x r : RegIdx} (hx : r ≠ x) (hvf : r ≠ vfIdx) (b : Byte) (c : Bool) :
    (s.writeRF x b c).getV r = s.getV r := by
  rw [State.getV_writeRF, if_neg fun h => hvf h.1, if_neg hx]

end

/-- A completed instruction keeps every register but its destinations and, where it is a flag, VF. -/
theorem completed_getV {s : State} {i : Instr} {r : RegIdx} (hr : r ∉ i.dests)
    (hflag : r = vfIdx → i.writesFlag = false) : (s.completed i).getV r = s.getV r := by
  cases i with
  | ldImm | addImm | ldReg | orReg | andReg | xorReg | rnd | ldFromDelay =>
    have hx := List.ne_of_not_mem_cons hr
    simp [State.completed, hx]
  | addReg | subReg | shr | subnReg | shl =>
    have hvf : r ≠ vfIdx := fun h => nomatch hflag h
    exact s.getV_writeRF_of_ne (List.ne_of_not_mem_cons hr) hvf _ _
  | drw | addIndex =>
    have hvf : r ≠ vfIdx := fun h => nomatch hflag h
    simp [State.completed, State.drawn, hvf]
  | ldKey => exact s.getV_keyWaited_of_ne (List.ne_of_not_mem_cons hr)
  | loadRegs x =>
    have hx : ¬ r ≤ x := fun h => hr (List.mem_filter.2 ⟨List.mem_finRange r, decide_eq_true h⟩)
    simp [State.completed, hx]
  | _ => simp [State.completed]

/-- Settles O45: raising keeps every register, and completing writes destinations and flags alone. -/
theorem registersWrittenOnlyAsNamed : Obligations.RegistersWrittenOnlyAsNamed := by
  intro i s t r hexec hr hflag
  obtain ⟨q, -, rfl⟩ | ⟨-, rfl⟩ := exec_cases hexec
  · rfl
  · exact completed_getV hr hflag

end Sys2Proof.Machine
end

section
/-! The invariant of every run (10_state.md R24, R53, R32), and what requests keep. -/

namespace Sys2Proof.Machine

/-! ### `pc`, the stack and memory after a completed instruction -/

@[simp] theorem toNat_wideByte (b : Byte) : (wideByte b).toNat = b.toNat := BitVec.toNat_setWidth_of_le (by decide)

/-- The target of BNNN does not wrap (43_index_offset_random.md R171). -/
theorem toNat_addressOf_add_wideByte (nnn : BitVec 12) (b : Byte) :
    (addressOf nnn + wideByte b).toNat = nnn.toNat + b.toNat := by
  have hn := nnn.isLt
  have hb := b.isLt
  rw [BitVec.toNat_add, toNat_addressOf, toNat_wideByte, Nat.mod_eq_of_lt (by omega)]

theorem State.skipIf_pc_le (s : State) (c : Bool) (h : s.pc.toNat ≤ 0x1000) : (s.skipIf c).pc.toNat ≤ 0x1002 := by
  rw [State.skipIf_pc]
  split
  · rw [BitVec.toNat_add_of_lt (by simp; omega)]
    exact Nat.add_le_add_right h 2
  · omega

/-- After an instruction of a step `pc` is at most 0x10FE: a skip's 0x1002, an entry's 0x1000 or BNNN's 0xFFF + 0xFF
(10_state.md R24). -/
theorem completed_pc_le {s : State} (i : Instr) (hlow : 2 ≤ s.pc.toNat) (hpc : s.pc.toNat ≤ 0x1000)
    (hstack : ∀ j : Fin 16, (s.stack[j.val]).toNat ≤ 0x1000) : (s.completed i).pc.toNat ≤ 0x10FE := by
  have haddress (nnn : BitVec 12) : (addressOf nnn).toNat ≤ 0xFFF := by
    rw [toNat_addressOf]; exact Nat.le_of_lt_succ nnn.isLt
  cases i with
  | ret =>
    rw [State.completed, State.returned]
    split
    next hsome => exact (hstack ⟨s.sp.val - 1, by omega⟩).trans (by decide)
    next => omega
  | jp nnn => exact (haddress nnn).trans (by decide)
  | call nnn =>
    rw [State.completed, State.called]
    split
    · exact (haddress nnn).trans (by decide)
    · omega
  | jpOffset nnn =>
    rw [State.completed, State.setPc_pc, toNat_addressOf_add_wideByte]
    have hn := nnn.isLt
    have hb := (s.jumpOffset nnn).isLt
    omega
  | seImm | sneImm | seReg | sneReg | skp | sknp => exact (s.skipIf_pc_le _ hpc).trans (by decide)
  | ldKey x =>
    rw [State.completed, State.keyWaited]
    split
    · rw [State.setV_pc]; omega
    · rw [State.setPc_pc, BitVec.toNat_sub_of_le hlow]
      exact (Nat.sub_le _ _).trans (hpc.trans (by decide))
  | _ =>
    simp only [State.completed, State.drawn, State.stored, State.regsLoaded, State.setDisplay_pc, State.setFlag_pc,
      State.setV_pc, State.writeRF_pc, State.setIndex_pc, State.nextDraw_pc, State.setDelay_pc, State.setSound_pc,
      State.advanceIndex_pc]
    omega

theorem completed_stack_le {s : State} (i : Instr) (hpc : s.pc.toNat ≤ 0x1000)
    (hstack : ∀ j : Fin 16, (s.stack[j.val]).toNat ≤ 0x1000) (j : Fin 16) :
    ((s.completed i).stack[j.val]).toNat ≤ 0x1000 := by
  by_cases hsame : (s.completed i).stack = s.stack
  · simp only [hsame]
    exact hstack j
  · obtain ⟨nnn, rfl⟩ := completed_stack hsame
    simp only [State.completed, State.called]
    split
    · simp only [Vector.getElem_set]
      split
      · exact hpc
      · exact hstack j
    · exact hstack j

/-- A block stored at writable addresses keeps memory canonical and the font region unlisted. -/
theorem memoryInv_of_writeList {s t : State} {a : Nat} {bs : List Byte} (h : s.memoryInv) (hfont : fontSize ≤ a)
    (hfits : a + bs.length ≤ memorySize) (hmem : t.mem = s.mem.writeList s.params.font a bs)
    (hparams : t.params = s.params) : t.memoryInv := by
  obtain ⟨hwf, hrange⟩ := h
  rw [State.memoryInv, hmem, hparams]
  refine ⟨Memory.wf_writeList _ bs a hwf, fun c hc => ?_⟩
  obtain ⟨hlow, hhigh⟩ | hc := Memory.mem_writeList _ bs hc
  · exact ⟨hfont.trans hlow, hhigh.trans_le hfits⟩
  · exact hrange c hc

theorem completed_memoryInv {s : State} {i : Instr} (h : s.memoryInv) (hnone : expectedFault s i = none) :
    (s.completed i).memoryInv := by
  obtain hmem | ⟨bs, hfont, hfits, hmem⟩ := completed_mem_cases hnone
  · rw [State.memoryInv, hmem, completed_params]
    exact h
  · exact memoryInv_of_writeList h hfont hfits hmem (completed_params s i)

/-! ### The step -/

/-- A fetched word lies in memory, so the fetch advance ends at 0x1000 at most. -/
theorem State.begin_pc_bounds {s : State} {w : Word} (hfetch : s.fetch = .ok w) :
    2 ≤ (s.begin w).pc.toNat ∧ (s.begin w).pc.toNat ≤ 0x1000 := by
  obtain ⟨-, herror⟩ | ⟨hpc, -⟩ := s.fetch_cases
  · cases hfetch.symm.trans herror
  · have hadvance : (s.begin w).pc.toNat = s.pc.toNat + 2 := by
      rw [State.begin_pc, BitVec.toNat_add_of_lt]
      · rfl
      · simp only [memorySize] at hpc; simp; omega
    rw [hadvance]
    simp only [memorySize] at hpc
    omega

theorem endOfStep_inv {t : State} (hmem : t.memoryInv) (hpc : t.pcInv) (hfault : t.fault = none) : t.endOfStep.Inv := by
  rw [State.Inv, State.memoryInv, State.pcInv, State.faultInv]
  simp only [State.endOfStep_mem, State.endOfStep_params, State.endOfStep_pc, State.endOfStep_stack,
    State.endOfStep_fault, hfault]
  exact ⟨hmem, hpc, nofun⟩

/-- Settles O49: a fault changes the record alone, which then names the step, and a completed instruction stores at
writable addresses, pushes the `pc` of a fetched word and jumps no further than 0x10FE. -/
theorem stepKeepsTheInvariant : Obligations.StepKeepsTheInvariant := by
  rintro s t ⟨hmem, ⟨hpc, hstack⟩, hrecord⟩ hstep
  obtain ⟨r, -, rfl⟩ | ⟨r, -, hr, rfl⟩ | ⟨w, i, hfault, -, hfetch, -, hnone, rfl⟩ := step_next_cases hstep
  · exact ⟨hmem, ⟨hpc, hstack⟩, hrecord⟩
  · obtain ⟨hfetchPc, hdetail, hword, -⟩ := State.stepFault_record hr
    refine ⟨hmem, ⟨hpc, hstack⟩, fun q hq => ?_⟩
    cases hq
    exact ⟨hfetchPc, hdetail, hword⟩
  · obtain ⟨hlow, hhigh⟩ := State.begin_pc_bounds hfetch
    refine endOfStep_inv (completed_memoryInv hmem hnone) ⟨?_, ?_⟩ ((completed_fault _ i).trans hfault)
    · exact completed_pc_le i hlow hhigh hstack
    · exact completed_stack_le i hhigh hstack

/-! ### Requests -/

/-- What every request of a run keeps, the run keeps. -/
theorem State.serveAll_keeps {P : State → Prop} {rs : List Request}
    (hserve : ∀ q ∈ rs, ∀ s, P s → P (s.serve q).2) : ∀ s, P s → P (s.serveAll rs) := by
  induction rs with
  | nil => exact fun _ hs => hs
  | cons q rs ih =>
    intro s hs
    exact ih (fun r hr => hserve r (List.mem_cons_of_mem q hr)) _ (hserve q List.mem_cons_self s hs)

/-- A step request is a step with the host's byte at the port. -/
theorem State.step_stepRequest (s : State) (b : Byte) : step { s with randIn := b } = .next (s.stepRequest b) := by
  obtain ⟨t, h⟩ := stepAlwaysAnswersNext { s with randIn := b }
  rw [State.stepRequest, h]

theorem State.externalTick_cases (s : State) : s.externalTick = s.timerTick ∨ s.externalTick = s := by
  unfold State.externalTick
  split
  · exact .inl rfl
  · exact .inr rfl
  · exact .inr rfl

/-- What a request can do. -/
theorem serve_cases {s t : State} {q : Request} (h : (s.serve q).2 = t) :
    t = s ∨ t = (s.serve .init).2 ∨ t = s.timerTick ∨ (∃ b, step { s with randIn := b } = .next t) ∨
    (∃ bs : List Byte, bs.length ≤ maxProgramSize ∧
      t = { s with mem := s.mem.writeList s.params.font programBase bs }) ∨
    (∃ k, q = .setKeypad k ∧ t = { s with keypadIn := k }) ∨ (∃ c, t = { s with cfgIn := c }) := by
  subst h
  cases q with
  | init => exact .inr (.inl rfl)
  | load src =>
    cases src with
    | readError => exact .inl rfl
    | bytes bs =>
      rcases Nat.lt_or_ge maxProgramSize bs.length with hlarge | hfits
      · exact .inl (congrArg Prod.snd (s.loadProgram_of_too_large hlarge))
      · exact .inr (.inr (.inr (.inr (.inl ⟨bs, hfits, congrArg Prod.snd (s.loadProgram_of_fits hfits)⟩))))
  | step b => exact .inr (.inr (.inr (.inl ⟨b, s.step_stepRequest b⟩)))
  | tick =>
    obtain htick | htick := s.externalTick_cases
    · exact .inr (.inr (.inl htick))
    · exact .inl htick
  | setKeypad k => exact .inr (.inr (.inr (.inr (.inr (.inl ⟨k, rfl, rfl⟩)))))
  | setConfig c => exact .inr (.inr (.inr (.inr (.inr (.inr ⟨c, rfl⟩)))))

theorem serve_init_inv (s : State) : (s.serve .init).2.Inv :=
  ⟨⟨⟨.nil, nofun⟩, nofun⟩,
    ⟨show (0x200 : Word).toNat ≤ 0x10FE by decide,
      fun j => (congrArg BitVec.toNat (Vector.getElem_replicate j.isLt)).trans_le (by decide)⟩, nofun⟩

theorem serve_inv {s : State} (h : s.Inv) (q : Request) : (s.serve q).2.Inv := by
  generalize ht : (s.serve q).2 = t
  obtain rfl | rfl | rfl | ⟨b, hstep⟩ | ⟨bs, hfits, rfl⟩ | ⟨k, -, rfl⟩ | ⟨c, rfl⟩ := serve_cases ht
  · exact h
  · exact serve_init_inv s
  · exact h
  · have hdriven : State.Inv { s with randIn := b } := h
    exact stepKeepsTheInvariant _ _ hdriven hstep
  · obtain ⟨hmem, hpc, hfault⟩ := h
    have hend : programBase + bs.length ≤ memorySize := Nat.add_le_add_left hfits programBase
    exact ⟨memoryInv_of_writeList hmem (by decide) hend rfl rfl, hpc, hfault⟩
  · exact h
  · exact h

/-- Settles O50: every request keeps the invariant, the step by O49. -/
theorem everyRunKeepsTheInvariant : Obligations.EveryRunKeepsTheInvariant :=
  fun _ => State.serveAll_keeps fun q _ _ h => serve_inv h q

/-- Settles O52: the reset values are read off; an unlisted address reads as its reset byte. -/
theorem initializeGivesTheResetState : Obligations.InitializeGivesTheResetState := by
  have hkeys (t : State) (h : t.keypad = Vector.replicate 16 false) (k : Nat) : t.keyDown k = false := by
    simp [State.keyDown, h]
  refine ⟨fun s => ⟨fun a => ?_, Display.cell_dark, fun i => ?_, fun i hi => ?_, hkeys _ rfl, rfl, rfl, rfl, rfl, rfl,
    rfl, rfl, fun w => hkeys _ rfl, rfl, rfl⟩, rfl⟩
  · change resetByte s.params.font a = s.params.font[a]?.getD 0
    unfold resetByte
    split
    next hfont => simp [hfont]
    next hfont => simp [hfont]
  · exact Vector.getElem_replicate i.isLt
  · exact Vector.getElem?_replicate.trans (if_pos hi)

/-- Settles O48: the reset state is what a reset request makes of it. -/
theorem resetMeetsTheInvariant : Obligations.ResetMeetsTheInvariant := serve_init_inv State.reset

/-! ### Parameters and the keypad port -/

/-- A step keeps the parameters. -/
theorem params_of_step {s t : State} (h : step s = .next t) : t.params = s.params := by
  obtain ⟨r, -, rfl⟩ | ⟨r, -, -, rfl⟩ | ⟨w, i, -, -, -, -, -, rfl⟩ := step_next_cases h
  · rfl
  · rfl
  · rw [State.endOfStep_params, completed_params, State.begin_params]

theorem serve_params (s : State) (q : Request) : (s.serve q).2.params = s.params := by
  generalize ht : (s.serve q).2 = t
  obtain rfl | rfl | rfl | ⟨b, hstep⟩ | ⟨bs, -, rfl⟩ | ⟨k, -, rfl⟩ | ⟨c, rfl⟩ := serve_cases ht
  case inr.inr.inr.inl => exact (params_of_step hstep).trans rfl
  all_goals rfl

/-- Settles O51: no request changes a parameter, so no list of requests does. -/
theorem parametersAreFixed : Obligations.ParametersAreFixed :=
  fun _ s => State.serveAll_keeps (P := fun t => t.params = s.params)
    (fun q _ t h => (serve_params t q).trans h) s rfl

/-- Every key is up, at the port and in the snapshot. -/
def State.KeysUp (s : State) : Prop := (∀ k, s.keyDown k = false) ∧ ∀ w k, (s.begin w).keyDown k = false

/-- The keys a state shows are those of its snapshot and of the port. -/
theorem State.KeysUp.of_eq {s t : State} (h : s.KeysUp) (hport : t.keypadIn = s.keypadIn)
    (hkeypad : t.keypad = s.keypad ∨ t.keypad = s.keypadIn) : t.KeysUp := by
  obtain ⟨hnow, hnext⟩ := h
  refine ⟨fun k => ?_, fun w k => ?_⟩
  · obtain hk | hk := hkeypad
    · rw [State.keyDown, hk]; exact hnow k
    · rw [State.keyDown, hk]; exact hnext 0 k
  · rw [State.keyDown, State.begin_keypad, hport]; exact hnext 0 k

/-- A step samples the port at most. -/
theorem keypad_of_step {s t : State} (h : step s = .next t) :
    t.keypadIn = s.keypadIn ∧ (t.keypad = s.keypad ∨ t.keypad = s.keypadIn) := by
  obtain ⟨r, -, rfl⟩ | ⟨r, -, -, rfl⟩ | ⟨w, i, -, -, -, -, -, rfl⟩ := step_next_cases h
  · exact ⟨rfl, .inl rfl⟩
  · exact ⟨rfl, .inl rfl⟩
  · rw [State.endOfStep_keypadIn, State.endOfStep_keypad, completed_keypadIn, completed_keypad]
    exact ⟨rfl, .inr rfl⟩

theorem serve_init_keysUp (s : State) : (s.serve .init).2.KeysUp := by
  obtain ⟨-, -, -, -, hnow, -, -, -, -, -, -, -, hnext, -⟩ := initializeGivesTheResetState.1 s
  exact ⟨hnow, hnext⟩

theorem serve_keysUp {s : State} (h : s.KeysUp) {q : Request} (hq : ∀ k, q ≠ .setKeypad k) : (s.serve q).2.KeysUp := by
  generalize ht : (s.serve q).2 = t
  obtain rfl | rfl | rfl | ⟨b, hstep⟩ | ⟨bs, -, rfl⟩ | ⟨k, hk, -⟩ | ⟨c, rfl⟩ := serve_cases ht
  case inr.inl => exact serve_init_keysUp s
  case inr.inr.inr.inl =>
    obtain ⟨hport, hkeypad⟩ := keypad_of_step hstep
    exact h.of_eq hport hkeypad
  case inr.inr.inr.inr.inr.inl => exact absurd hk (hq k)
  all_goals exact h

/-- Settles O57: a reset request clears the port, and a request that does not write the port can at most sample it. -/
theorem keypadIsUpUntilTheHostWritesIt : Obligations.KeypadIsUpUntilTheHostWritesIt := by
  intro s rs hrs k
  have hkeep (q : Request) (hq : q ∈ rs) (t : State) (h : t.KeysUp) : (t.serve q).2.KeysUp :=
    serve_keysUp h fun j hj => hrs j (hj ▸ hq)
  obtain ⟨hnow, hnext⟩ := State.serveAll_keeps hkeep _ (serve_init_keysUp s)
  exact ⟨hnow k, fun w => hnext w k⟩

end Sys2Proof.Machine
end

section
/-! What no step reads: `sound`, the latch of an earlier step, and the stack entries at and above `sp`
(10_state.md R25, R27, R31, R35). -/

namespace Sys2Proof.Machine

/-- `s` with another stack and another `sound`. -/
def State.withStackAndSound (s : State) (st : Vector Word 16) (b : Byte) : State := { s with stack := st, sound := b }

section
variable (s : State) (st : Vector Word 16) (b : Byte)

theorem State.skipIf_withStackAndSound (c : Bool) :
    (s.withStackAndSound st b).skipIf c = (s.skipIf c).withStackAndSound st b := by
  unfold State.skipIf; split <;> rfl

theorem State.writeRF_withStackAndSound (x : RegIdx) (r : Byte) (c : Bool) :
    (s.withStackAndSound st b).writeRF x r c = (s.writeRF x r c).withStackAndSound st b := by
  unfold State.writeRF State.withStackAndSound
  split <;> rfl

theorem State.advanceIndex_withStackAndSound (x : RegIdx) :
    (s.withStackAndSound st b).advanceIndex x = (s.advanceIndex x).withStackAndSound st b := by
  unfold State.advanceIndex State.withStackAndSound
  split <;> rfl

theorem State.keyWaited_withStackAndSound (x : RegIdx) :
    (s.withStackAndSound st b).keyWaited x = (s.keyWaited x).withStackAndSound st b := by
  have hscan : (s.withStackAndSound st b).lowestKey = s.lowestKey := rfl
  unfold State.keyWaited
  rw [hscan]
  split <;> rfl

/-- Return and call apart, no instruction reads the stack; FX18 apart, none reads or writes `sound`. -/
theorem completed_withStackAndSound {i : Instr} (hret : i ≠ .ret) (hcall : ∀ nnn, i ≠ .call nnn)
    (hsound : ∀ x, i ≠ .ldSound x) :
    (s.withStackAndSound st b).completed i = (s.completed i).withStackAndSound st b := by
  cases i with
  | cls | jp | ldImm | addImm | ldReg | orReg | andReg | xorReg | ldIndex | jpOffset | rnd | ldFromDelay => rfl
  | ldDelay | addIndex | ldGlyph | storeBcd | drw => rfl
  | seImm | sneImm | seReg | sneReg | skp | sknp => exact s.skipIf_withStackAndSound st b _
  | addReg | subReg | shr | subnReg | shl => exact s.writeRF_withStackAndSound st b _ _ _
  | ldKey x => exact s.keyWaited_withStackAndSound st b x
  | storeRegs x => exact (s.stored (s.regsUpTo x)).advanceIndex_withStackAndSound st b x
  | loadRegs x => exact (s.regsLoaded x).advanceIndex_withStackAndSound st b x
  | ret => exact absurd rfl hret
  | call nnn => exact absurd rfl (hcall nnn)
  | ldSound x => exact absurd rfl (hsound x)

end

/-! ### `sound` and the latch -/

theorem completed_setSound_of_ne {s : State} {b : Byte} {i : Instr} (hret : i ≠ .ret) (hcall : ∀ nnn, i ≠ .call nnn)
    (hsound : ∀ x, i ≠ .ldSound x) : (s.setSound b).completed i = (s.completed i).setSound b := by
  have hstack : (s.completed i).stack = s.stack := by_contra fun h => (completed_stack h).elim hcall
  calc (s.setSound b).completed i
    _ = (s.completed i).withStackAndSound s.stack b := completed_withStackAndSound s s.stack b hret hcall hsound
    _ = (s.completed i).withStackAndSound (s.completed i).stack b := by rw [hstack]
    _ = (s.completed i).setSound b := rfl

/-- From another `sound` an instruction completes in the same state but for `sound`. -/
theorem completed_setSound (s : State) (b : Byte) (i : Instr) :
    ∃ c, (s.setSound b).completed i = (s.completed i).setSound c := by
  cases i with
  | ret =>
    refine ⟨b, ?_⟩
    dsimp only [State.completed]
    by_cases hsome : 0 < s.sp.val
    · rw [s.returned_of_pos hsome, (s.setSound b).returned_of_pos hsome]; rfl
    · rw [s.returned_of_empty hsome, (s.setSound b).returned_of_empty hsome]
  | call nnn =>
    refine ⟨b, ?_⟩
    dsimp only [State.completed]
    by_cases hroom : s.sp.val < 16
    · rw [s.called_of_room nnn hroom, (s.setSound b).called_of_room nnn hroom]; rfl
    · rw [s.called_of_full nnn hroom, (s.setSound b).called_of_full nnn hroom]
  | ldSound x => exact ⟨s.getV x, rfl⟩
  | _ => exact ⟨b, completed_setSound_of_ne nofun nofun nofun⟩

/-- The end of a step reads no more of `sound` than it decrements. -/
theorem State.endOfStep_setSound (s : State) (b : Byte) :
    { (s.setSound b).endOfStep with sound := s.endOfStep.sound, opcode := s.endOfStep.opcode } = s.endOfStep := by
  unfold State.endOfStep
  rw [State.setSound_params]
  split <;> rfl

/-- Settles O46: the step's fault reads neither, the latch is overwritten before the instruction runs, and `sound`
passes through it and the tick. -/
theorem soundAndLatchAreNeverRead : Obligations.SoundAndLatchAreNeverRead := by
  intro s t b v hstep
  obtain ⟨r, hr, rfl⟩ | ⟨r, hfault, hr, rfl⟩ | ⟨w, i, hfault, -, hfetch, hdecode, hnone, rfl⟩ := step_next_cases hstep
  · exact ⟨_, step_faulted hr, rfl⟩
  · exact ⟨_, step_of_stepFault hfault hr, rfl⟩
  · obtain ⟨c, hc⟩ := completed_setSound (s.begin w) b i
    refine ⟨_, step_of_completed hfault hfetch hdecode hnone, ?_⟩
    change { ((s.begin w).setSound b |>.completed i).endOfStep with
      sound := ((s.begin w).completed i).endOfStep.sound, opcode := ((s.begin w).completed i).endOfStep.opcode } = _
    rw [hc]
    exact State.endOfStep_setSound _ c

/-! ### Stale stack entries -/

theorem sameButStale_withStack {s : State} {st : Vector Word 16}
    (hbelow : ∀ j, j < s.sp.val → st[j]? = s.stack[j]?) : SameButStale s (s.withStackAndSound st s.sound) :=
  ⟨rfl, hbelow⟩

theorem SameButStale.eq_withStack {s s' : State} (h : SameButStale s s') :
    s' = s.withStackAndSound s'.stack s.sound := h.1

/-- An instruction that neither reads nor writes the stack leaves the stale entries stale. -/
theorem completed_sameButStale_of_ne {s : State} {st : Vector Word 16} {i : Instr}
    (hbelow : ∀ j, j < s.sp.val → st[j]? = s.stack[j]?) (hret : i ≠ .ret) (hcall : ∀ nnn, i ≠ .call nnn)
    (hsound : ∀ x, i ≠ .ldSound x) :
    SameButStale (s.completed i) ((s.withStackAndSound st s.sound).completed i) := by
  have hsp : (s.completed i).sp = s.sp := by_contra fun h => (completed_sp h).elim hret fun ⟨n, hn⟩ => hcall n hn
  have hstack : (s.completed i).stack = s.stack := by_contra fun h => (completed_stack h).elim hcall
  have hkept : (s.completed i).sound = s.sound := by_contra fun h => (completed_sound h).elim hsound
  rw [completed_withStackAndSound s st s.sound hret hcall hsound, ← hkept]
  refine sameButStale_withStack fun j hj => ?_
  rw [hstack]
  exact hbelow j (hsp ▸ hj)

/-- Return reads an entry below `sp`, call writes the entry at `sp`, and no other instruction knows the stack. -/
theorem completed_sameButStale {s s' : State} (h : SameButStale s s') (i : Instr) :
    SameButStale (s.completed i) (s'.completed i) := by
  obtain ⟨hs', hbelow⟩ := h
  generalize s'.stack = st at hs' hbelow
  subst hs'
  cases i with
  | ret =>
    by_cases hsome : 0 < s.sp.val
    · have hentry : st[s.sp.val - 1]'(by omega) = s.stack[s.sp.val - 1]'(by omega) := by
        have hsame := hbelow (s.sp.val - 1) (by omega)
        rwa [Vector.getElem?_eq_getElem (by omega), Vector.getElem?_eq_getElem (by omega),
          Option.some.injEq] at hsame
      change SameButStale s.returned (s.withStackAndSound st s.sound).returned
      rw [State.returned_of_pos s hsome, State.returned_of_pos (s.withStackAndSound st s.sound) hsome]
      simp only [State.withStackAndSound, hentry]
      exact ⟨rfl, fun j hj => hbelow j (Nat.lt_of_lt_of_le hj (Nat.sub_le _ _))⟩
    · change SameButStale s.returned (s.withStackAndSound st s.sound).returned
      rw [State.returned_of_empty s hsome, State.returned_of_empty (s.withStackAndSound st s.sound) hsome]
      exact sameButStale_withStack hbelow
  | call nnn =>
    change SameButStale (s.called nnn) ((s.withStackAndSound st s.sound).called nnn)
    by_cases hroom : s.sp.val < 16
    · rw [State.called_of_room s nnn hroom, State.called_of_room (s.withStackAndSound st s.sound) nnn hroom]
      refine ⟨rfl, fun j hj => ?_⟩
      change (st.set s.sp.val s.pc hroom)[j]? = (s.stack.set s.sp.val s.pc hroom)[j]?
      rw [Vector.getElem?_set, Vector.getElem?_set]
      split
      · rfl
      next hne => exact hbelow j (Nat.lt_of_le_of_ne (Nat.le_of_lt_succ hj) (Ne.symm hne))
    · rw [State.called_of_full s nnn hroom, State.called_of_full (s.withStackAndSound st s.sound) nnn hroom]
      exact sameButStale_withStack hbelow
  | ldSound x => exact ⟨rfl, hbelow⟩
  | _ => exact completed_sameButStale_of_ne hbelow nofun nofun nofun

theorem endOfStep_sameButStale {s s' : State} (h : SameButStale s s') : SameButStale s.endOfStep s'.endOfStep := by
  obtain ⟨hs', hbelow⟩ := h
  generalize s'.stack = st at hs' hbelow
  subst hs'
  unfold State.endOfStep
  dsimp only
  split
  · exact ⟨rfl, hbelow⟩
  · exact ⟨rfl, hbelow⟩

/-- Settles O47: the step's fault reads no stack entry, and its instruction and tick keep the stale entries apart. -/
theorem staleStackEntriesAffectNothing : Obligations.StaleStackEntriesAffectNothing := by
  intro s s' t hsame hstep
  have hfields := hsame.eq_withStack
  have hbegin (w : Word) : SameButStale (s.begin w) (s'.begin w) := by
    obtain ⟨hs', hbelow⟩ := hsame
    exact ⟨by rw [hs']; rfl, hbelow⟩
  obtain ⟨r, hr, rfl⟩ | ⟨r, hfault, hr, rfl⟩ | ⟨w, i, hfault, -, hfetch, hdecode, hnone, rfl⟩ := step_next_cases hstep
  · exact ⟨s', step_faulted (r := r) (by rw [hfields]; exact hr), hsame⟩
  · refine ⟨_, step_of_stepFault (r := r) (by rw [hfields]; exact hfault) (by rw [hfields]; exact hr), ?_⟩
    obtain ⟨hs', hbelow⟩ := hsame
    exact ⟨by rw [hs'], hbelow⟩
  · refine ⟨_, step_of_completed (w := w) (i := i) ?_ ?_ hdecode ?_,
      endOfStep_sameButStale (completed_sameButStale (hbegin w) i)⟩
    · rw [hfields]; exact hfault
    · rw [hfields]; exact hfetch
    · rw [hfields]; exact hnone

end Sys2Proof.Machine
end

section
/-! Loads, the quiescent machine, the placed word and the parked machine (70_reset_and_hazards.md R281, R293,
60_exceptions.md R242). -/

namespace Sys2Proof.Machine

/-- Settles O53: a program that fits is one block write from 0x200 up. -/
theorem loadProgramCopiesTheBytes : Obligations.LoadProgramCopiesTheBytes := by
  intro s bs hwf hfits
  refine ⟨_, s.loadProgram_of_fits hfits, fun i hi => ?_, fun a ha => ?_, rfl⟩
  · rw [List.getElem?_eq_getElem hi]
    exact congrArg some (Memory.read_writeList_inside s.params.font bs programBase i hwf hi).symm
  · exact Memory.read_writeList_outside s.params.font bs s.mem programBase a ha

/-- Only a reset request clears a record, and no request replaces one. -/
theorem fault_of_serve {s : State} {r : FaultRecord} (hr : s.fault = some r) {q : Request} (hq : q ≠ .init) :
    (s.serve q).2.fault = some r := by
  cases q with
  | init => exact absurd rfl hq
  | load src => exact (s.loadProgram_fault src).trans hr
  | step b => exact (fault_of_step (s.step_stepRequest b)).trans (congrArg (Option.or · _) hr)
  | tick =>
    rw [State.serve, State.externalTick]
    split <;> exact hr
  | setKeypad | setConfig => exact hr

/-- Settles O12: a faulted step answers its own state, and the record outlasts every request but a reset. -/
theorem faultedMachineIsQuiescent : Obligations.FaultedMachineIsQuiescent := by
  intro s r hr
  have hstep (b : Byte) : s.stepRequest b = { s with randIn := b } := by
    rw [State.stepRequest, step_faulted (s := { s with randIn := b }) hr]
  refine ⟨step_faulted hr, fun b => ⟨?_, hstep b⟩, ?_, fun q => fault_of_serve hr, fun bs hwf hfits => ?_, rfl⟩
  · rw [State.serve, hstep, State.statusOut]
    exact congrArg Reply.status hr
  · simp [State.serve, State.externalTick, hr]
  · obtain ⟨t, hload, hbytes, houtside, hframe⟩ := loadProgramCopiesTheBytes s bs hwf hfits
    exact ⟨t, by rw [State.serve, hload], hbytes, houtside, hframe⟩

/-- Two bytes of memory lie at the `pc` of a state made ready to fetch. -/
theorem State.readyToFetch_pc (s : State) : s.readyToFetch.pc.toNat + 1 < memorySize := by
  rw [State.readyToFetch]
  split
  · exact (by decide : (BitVec.ofNat 16 programBase).toNat + 1 < memorySize)
  next h => exact Nat.lt_of_not_le h

/-- A placed word is the word at `pc`. -/
theorem State.wordAt_placeWord {s : State} (hwf : Memory.wf s.params.font s.mem) (w : Word) :
    (s.placeWord w).wordAt s.pc.toNat = w := by
  have hhigh : (s.placeWord w).byteAt s.pc.toNat = highByte w :=
    Memory.read_writeList_inside s.params.font [highByte w, lowByte w] s.pc.toNat 0 hwf Nat.two_pos
  have hlow : (s.placeWord w).byteAt (s.pc.toNat + 1) = lowByte w :=
    Memory.read_writeList_inside s.params.font [highByte w, lowByte w] s.pc.toNat 1 hwf Nat.one_lt_two
  rw [State.wordAt, hhigh, hlow, wordOfBytes_bytes]

/-- Settles O56: placing keeps `pc`, so the fetch reads the two bytes that were stored. -/
theorem placedWordIsFetched : Obligations.PlacedWordIsFetched := by
  intro s w hwf hw
  refine ⟨rfl, ?_⟩
  have hword : w % 2 ^ 16 = w := Nat.mod_eq_of_lt hw
  have hfetch := (s.withFetchWord 16 w).fetch_ok s.readyToFetch_pc
  rw [State.withFetchWord, hword] at hfetch ⊢
  rw [hfetch]
  exact congrArg Except.ok (State.wordAt_placeWord (s := s.readyToFetch) hwf _)

/-! ### Parked -/

/-- A parked machine's step is the end of a step that did nothing but sample and latch. -/
theorem step_parked {s : State} (hfault : s.fault = none) (h : s.parked) :
    step s = .next { s with keypad := s.keypadIn, opcode := s.wordAt s.pc.toNat }.endOfStep := by
  obtain ⟨hpc, hfamily, hself⟩ := h
  refine step_completed hfault (s.fetch_ok hpc) (decodeWord_of_family_one hfamily) ?_ hfault
  rw [exec_jp, hself]
  rfl

/-- Settles O55: what the step changes is no part of being parked. -/
theorem parkedStaysParked : Obligations.ParkedStaysParked := by
  intro s hfault hparked
  refine ⟨_, step_parked hfault hparked, ?_⟩
  unfold State.endOfStep
  split
  · exact ⟨hparked, fun _ => rfl, rfl⟩
  · exact ⟨hparked, fun _ => rfl, rfl⟩

end Sys2Proof.Machine
end

section
/-! Return, call, the register ALU, the offset jump, the random byte, the key skips and family 0xF's register
instructions (40_sys_jump_call.md, 42_alu.md, 43_index_offset_random.md, 45_keys.md, 46_misc.md). -/

namespace Sys2Proof.Machine

/-! ### Return and call -/

/-- Settles O16: with an entry present the state is `State.returned`'s, and 0x1000 lies past the last word. -/
theorem returnFromSubroutine : Obligations.ReturnFromSubroutine := by
  refine ⟨.of_fixed_word (by decide), fun s hempty => ?_, fun s hsome => ?_⟩
  · rw [exec_of_no_fault (i := .ret) rfl, State.completed, s.returned_of_empty (by omega)]
  · refine ⟨_, exec_of_no_fault rfl, ?_⟩
    rw [State.completed, s.returned_of_pos hsome]
    refine ⟨rfl, Vector.getElem?_eq_getElem _, fun _ => rfl, rfl, fun hpc => ?_⟩
    rw [State.fetch_error _ (by rw [hpc]; decide), hpc]
    rfl

/-- Settles O18: with room the state is `State.called`'s, and with 16 entries the table's fault. -/
theorem callPushesAndJumps : Obligations.CallPushesAndJumps := by
  refine ⟨fun nnn s hroom => ?_, fun nnn s hfull => exec_of_fault (r := ⟨.stackOverflow, nnn.toNat⟩) (if_pos hfull)⟩
  refine ⟨_, exec_of_no_fault (if_neg (by omega)), ?_⟩
  rw [State.completed, s.called_of_room nnn hroom]
  refine ⟨rfl, ?_, fun i hi => ?_, toNat_addressOf nnn, fun _ => rfl, rfl⟩
  · exact Vector.getElem?_set_self hroom
  · exact Vector.getElem?_set_ne hroom (Ne.symm hi)

/-- Settles O19: the return pops the entry the call pushed, which stays behind above `sp`. -/
theorem returnUndoesCall : Obligations.ReturnUndoesCall := by
  intro nnn s hroom
  have hback : (s.called nnn).returned = { s with stack := s.stack.set s.sp.val s.pc } := by
    have hsome : 0 < (s.called nnn).sp.val := by rw [s.called_of_room nnn hroom]; exact Nat.succ_pos _
    rw [State.returned_of_pos _ hsome]
    simp [s.called_of_room nnn hroom]
  refine ⟨s.called nnn, (s.called nnn).returned, exec_of_no_fault (if_neg (by omega)), exec_of_no_fault rfl, ?_⟩
  rw [hback]
  exact ⟨rfl, rfl, fun _ => rfl, rfl, fun i hi => Vector.getElem?_set_ne hroom (Nat.ne_of_gt hi)⟩

/-! ### The register ALU -/

/-- Settles O22: each is one register write of a bitwise combination. -/
theorem logicOperationsWriteNoFlag : Obligations.LogicOperationsWriteNoFlag := by
  refine fun x y s => ⟨⟨_, exec_of_no_fault rfl, s.onlyRegs_setV x _, fun k => ?_⟩,
    ⟨_, exec_of_no_fault rfl, s.onlyRegs_setV x _, fun k => ?_⟩,
    ⟨_, exec_of_no_fault rfl, s.onlyRegs_setV x _, fun k => ?_⟩⟩
  · rw [State.completed, State.getV_setV_self, BitVec.getLsbD_or]
  · rw [State.completed, State.getV_setV_self, BitVec.getLsbD_and]
  · rw [State.completed, State.getV_setV_self, BitVec.getLsbD_xor]

theorem toNat_flagByte (c : Bool) : (flagByte c).toNat = if c then 1 else 0 := by cases c <;> rfl

theorem State.writeRF_only (s : State) (x : RegIdx) (b : Byte) (c : Bool) :
    s.writeRF x b c = { s with v := (s.writeRF x b c).v } := by
  unfold State.writeRF; split <;> rfl

/-- `WriteRF` writes a result and a flag, in the order the parameter says (42_alu.md R141). -/
theorem State.resultAndFlag_writeRF (s : State) (x : RegIdx) (b : Byte) (c : Bool) :
    ResultAndFlag s (s.writeRF x b c) x b.toNat (flagByte c).toNat := by
  refine ⟨fun hx => ⟨?_, ?_⟩, ?_, fun r hr => ?_, State.byteAt_congr (s.writeRF_mem x b c) (s.writeRF_params x b c),
    s.writeRF_only x b c⟩
  · rw [State.getV_writeRF, if_neg fun h => hx h.1, if_pos rfl]
  · rw [State.getV_writeRF, if_pos ⟨rfl, .inl hx⟩]
  · rintro rfl
    rw [State.getV_writeRF]
    cases hlast : s.params.vfFlagLast <;> simp
  · obtain ⟨hx, hvf⟩ : r ≠ x ∧ r ≠ vfIdx := by simpa using hr
    exact s.getV_writeRF_of_ne hx hvf b c

/-- `resultAndFlag_writeRF` for a result and a flag known as numbers. -/
theorem State.resultAndFlag_of_toNat (s : State) (x : RegIdx) {b : Byte} {c : Bool} {result flag : Nat}
    (hb : b.toNat = result) (hc : (flagByte c).toNat = flag) : ResultAndFlag s (s.writeRF x b c) x result flag := by
  subst hb hc
  exact s.resultAndFlag_writeRF x b c

/-- Settles O23: the byte sum is the sum modulo 256, and the carry says whether it was reduced. -/
theorem addWithCarry : Obligations.AddWithCarry := by
  refine fun x y s => ⟨_, exec_of_no_fault rfl, s.resultAndFlag_of_toNat x (BitVec.toNat_add _ _) ?_⟩
  simp [toNat_flagByte, carryOut]

theorem toNat_sub_byte (a b : Byte) : (a - b).toNat = (a.toNat + 256 - b.toNat) % 256 := by
  bv_omega

theorem toNat_flagByte_notBorrow (a b : Byte) :
    (flagByte (notBorrow a b)).toNat = if a.toNat < b.toNat then 0 else 1 := by
  rw [toNat_flagByte, notBorrow]
  by_cases h : a.toNat < b.toNat
  · simp [h]
  · simp [h, Nat.not_lt.1 h]

/-- Settles O24: the byte difference modulo 256, and NOT borrow as the comparison of the operands. -/
theorem subtractWithNotBorrow : Obligations.SubtractWithNotBorrow := fun x _ s =>
  ⟨⟨_, exec_of_no_fault rfl, s.resultAndFlag_of_toNat x (toNat_sub_byte _ _) (toNat_flagByte_notBorrow _ _)⟩,
    ⟨_, exec_of_no_fault rfl, s.resultAndFlag_of_toNat x (toNat_sub_byte _ _) (toNat_flagByte_notBorrow _ _)⟩⟩

theorem toNat_flagByte_bitOutRight (b : Byte) : (flagByte (bitOutRight b)).toNat = b.toNat % 2 := by
  revert b; decide

theorem toNat_flagByte_bitOutLeft (b : Byte) : (flagByte (bitOutLeft b)).toNat = b.toNat / 128 := by
  revert b; decide

/-- Settles O25: a shift by one halves or doubles, and the bit out is the remainder or the top bit. -/
theorem shiftsByOne : Obligations.ShiftsByOne := by
  rintro x y s src rfl
  refine ⟨⟨_, exec_of_no_fault rfl, s.resultAndFlag_of_toNat x ?_ (toNat_flagByte_bitOutRight _)⟩,
    ⟨_, exec_of_no_fault rfl, s.resultAndFlag_of_toNat x ?_ (toNat_flagByte_bitOutLeft _)⟩⟩
  · exact (BitVec.toNat_ushiftRight ..).trans (Nat.shiftRight_eq_div_pow _ 1)
  · rw [BitVec.toNat_shiftLeft, Nat.shiftLeft_eq]
    rfl

/-! ### The offset jump and the random byte -/

/-- Settles O27: NNN's top nibble is the register's number, and the sum does not wrap. -/
theorem jumpWithOffset : Obligations.JumpWithOffset := by
  intro nnn x s hx
  have hnibble : topNibble nnn = x := by
    have hn := nnn.isLt
    apply Fin.ext
    change (nnn.extractLsb' 8 4).toNat = x.val
    rw [BitVec.extractLsb'_toNat, Nat.shiftRight_eq_div_pow, hx]
    omega
  refine ⟨_, exec_of_no_fault rfl, s.onlyPc_setPc _, ?_⟩
  rw [State.completed, State.setPc_pc, toNat_addressOf_add_wideByte, State.jumpOffset, hnibble]

/-- Settles O28: a draw moves the port on and one register write takes the masked byte. -/
theorem randomByteMasked : Obligations.RandomByteMasked := by
  refine fun x nn s => ⟨_, exec_of_no_fault rfl, fun k => ?_, fun r hr => ?_, fun _ => rfl, rfl⟩
  · rw [State.completed, State.getV_setV_self, BitVec.getLsbD_and]
  · rw [State.completed, State.getV_setV, if_neg (List.ne_of_not_mem_cons hr), State.getV_nextDraw]

/-! ### Keys, timers, `index` -/

theorem numberFault_of_le {b : Byte} {k : Fault} (h : b.toNat ≤ 15) : numberFault b k = none :=
  if_neg (Nat.not_lt.2 h)

theorem numberFault_of_lt {b : Byte} {k : Fault} (h : 15 < b.toNat) : numberFault b k = some ⟨k, b.toNat⟩ := if_pos h

theorem State.keyDown_val (s : State) (k : Fin 16) : s.keyDown k.val = s.keypad[k.val] := dif_pos k.isLt

/-- Settles O31: a key's number skips by its flag in the snapshot, and a larger one is the table's fault. -/
theorem keySkips : Obligations.KeySkips := by
  refine ⟨fun x s k hk => ?_, fun x s hlarge i hi => ?_⟩
  · have hnone : numberFault (s.getV x) .keyIndexRange = none := numberFault_of_le (by omega)
    refine ⟨⟨_, exec_of_no_fault hnone, s.onlyPc_skipIf _, ?_⟩, ⟨_, exec_of_no_fault hnone, s.onlyPc_skipIf _, ?_⟩⟩
    · rw [State.completed, State.skipIf_pc, hk, State.keyDown_val]
    · rw [State.completed, State.skipIf_pc, hk, State.keyDown_val]
      cases s.keypad[k.val] <;> rfl
  · obtain rfl | rfl := hi
    · exact exec_of_fault (i := .skp x) (numberFault_of_lt hlarge)
    · exact exec_of_fault (i := .sknp x) (numberFault_of_lt hlarge)

/-- Settles O32: a timer write, then the tick of the step's mode; FX07 reads before that tick. -/
theorem timerInstructions : Obligations.TimerInstructions := by
  refine ⟨.of_family_byte fun hf hn => (decodeWord_of_family_fifteen hf).trans (by simp [decodeFamilyF, hn]; rfl),
    fun x s => ⟨?_, ?_, ?_⟩⟩
  · refine ⟨_, exec_of_no_fault rfl, rfl, fun _ => rfl, rfl, fun hmode => ?_, fun hmode => ?_⟩
    · rw [State.completed, State.endOfStep_perStep (t := s.setSound (s.getV x)) hmode]
      exact toNat_tickDown _
    · rw [State.completed, State.endOfStep_external (t := s.setSound (s.getV x)) hmode, State.setSound_sound]
  · refine ⟨_, exec_of_no_fault rfl, rfl, fun _ => rfl, rfl, fun hmode => ?_, fun hmode => ?_⟩
    · rw [State.completed, State.endOfStep_perStep (t := s.setDelay (s.getV x)) hmode]
      exact toNat_tickDown _
    · rw [State.completed, State.endOfStep_external (t := s.setDelay (s.getV x)) hmode, State.setDelay_delay]
  · exact ⟨_, exec_of_no_fault rfl, s.getV_setV_self x _, s.onlyRegs_setV x _⟩

/-- Settles O34: the 16-bit sum is the sum modulo 65536, and the flag compares that sum. -/
theorem addToIndex : Obligations.AddToIndex := by
  refine fun x s => ⟨_, exec_of_no_fault rfl, ?_, ?_, fun r hr => ?_, fun _ => rfl, rfl⟩
  · rw [State.completed, State.setFlag_index, State.setIndex_index, BitVec.toNat_add, toNat_wideByte]
  · rw [State.completed, State.getV_setFlag, if_pos rfl, State.setFlag_index, State.setIndex_index]
    simp [flagByte, indexRange]
  · rw [State.completed, State.getV_setFlag, if_neg (List.ne_of_not_mem_cons hr), State.getV_setIndex]

theorem toNat_glyphAddress {d : Nat} (h : d ≤ 15) : (glyphAddress d).toNat = 5 * d := by
  rw [glyphAddress, BitVec.toNat_ofNat]
  omega

end Sys2Proof.Machine

namespace Sys2Proof

open Machine in
/-- Settles O35: glyph `d` is at `5 * d` in the font region, which the invariant leaves at FONT. -/
theorem glyphAddress : Obligations.GlyphAddress := by
  refine ⟨fun x s hsmall => ?_, fun x s hlarge => exec_of_fault (i := .ldGlyph x) (numberFault_of_lt hlarge)⟩
  have hindex : (s.completed (.ldGlyph x)).index.toNat = 5 * (s.getV x).toNat := toNat_glyphAddress hsmall
  refine ⟨_, exec_of_no_fault (numberFault_of_le hsmall), hindex, fun _ => rfl, rfl, fun hinv j hj => ?_⟩
  rw [hindex]
  exact fontRegionIsNeverAltered.2 s hinv _ (by omega)

end Sys2Proof
end

section
/-! The block transfers and the sprite draw (46_misc.md R216 to R218, 44_draw.md R180). -/

namespace Sys2Proof.Machine

/-! ### Stored blocks -/

section
variable {s : State} {bs : List Byte}

theorem State.byteAt_stored (hwf : Memory.wf s.params.font s.mem) {i : Nat} (hi : i < bs.length) :
    (s.stored bs).byteAt (s.dataAddress + i) = bs[i] :=
  Memory.read_writeList_inside s.params.font bs s.dataAddress i hwf hi

theorem State.sameMemoryOutside_stored : SameMemoryOutside s (s.stored bs) s.dataAddress bs.length :=
  fun a ha => Memory.read_writeList_outside s.params.font bs s.mem s.dataAddress a ha

end

/-- The bytes from `a` can all be stored. -/
theorem storeFault_of_writable {a n : Nat} (hfont : 0x50 ≤ a) (hfits : a + n ≤ 4096) : storeFault a n = none :=
  (if_neg (Nat.not_lt.2 hfont)).trans (if_pos hfits)

theorem State.byteAt_advanceIndex (s : State) (x : RegIdx) (a : Nat) : (s.advanceIndex x).byteAt a = s.byteAt a :=
  State.byteAt_congr (s.advanceIndex_mem x) (s.advanceIndex_params x) a

/-- The increment of `index` under its quirk, in 16 bits (46_misc.md R217, R218). -/
theorem State.toNat_advanceIndex_index (s : State) (x : RegIdx) : (s.advanceIndex x).index.toNat =
    if s.cfgIn.indexIncrementQuirk then (s.index.toNat + x.val + 1) % 65536 else s.index.toNat := by
  rw [State.advanceIndex_index]
  split
  · rw [BitVec.toNat_add, BitVec.toNat_ofNat]
    omega
  · rfl

/-- A register's byte in the block FX55 stores. -/
theorem State.byteAt_stored_regsUpTo {s : State} {x i : RegIdx} (hwf : Memory.wf s.params.font s.mem) (hi : i ≤ x) :
    (s.stored (s.regsUpTo x)).byteAt (s.dataAddress + i.val) = s.getV i := by
  have hlength : i.val < (s.regsUpTo x).length := by rw [s.length_regsUpTo]; exact Nat.lt_succ_of_le hi
  rw [State.byteAt_stored hwf hlength, s.getElem_regsUpTo x i.val hlength i.isLt]

/-- Settles O36: the three digits are a stored block, each less than 256. -/
theorem storeDecimalDigits : Obligations.StoreDecimalDigits := by
  intro x s hwf hfont hfits
  have hdigits := (s.getV x).isLt
  have hbyte {i : Nat} (hi : i < (bcdDigits (s.getV x)).length) :=
    State.byteAt_stored (bs := bcdDigits (s.getV x)) hwf hi
  refine ⟨s.stored (bcdDigits (s.getV x)), exec_of_no_fault (storeFault_of_writable hfont hfits), ?_, ?_, ?_,
    State.sameMemoryOutside_stored, rfl⟩
  · rw [← Nat.add_zero s.dataAddress, hbyte (i := 0) (by simp)]
    simp only [bcdDigits, List.getElem_cons_zero, BitVec.toNat_ofNat]
    omega
  · rw [hbyte (i := 1) (by simp)]
    simp only [bcdDigits, List.getElem_cons_succ, List.getElem_cons_zero, BitVec.toNat_ofNat]
    omega
  · rw [hbyte (i := 2) (by simp)]
    simp only [bcdDigits, List.getElem_cons_succ, List.getElem_cons_zero, BitVec.toNat_ofNat]
    omega

/-- Settles O37: FX55 is a stored block of registers and the increment. -/
theorem storeRegisters : Obligations.StoreRegisters := by
  intro x s hwf hfont hfits
  refine ⟨(s.stored (s.regsUpTo x)).advanceIndex x, exec_of_no_fault (storeFault_of_writable hfont hfits),
    fun i hi => ?_, State.toNat_advanceIndex_index _ x, fun a ha => ?_, ?_⟩
  · rw [State.byteAt_advanceIndex, State.byteAt_stored_regsUpTo hwf hi]
  · rw [State.byteAt_advanceIndex]
    exact State.sameMemoryOutside_stored a (by rwa [s.length_regsUpTo])
  · unfold State.advanceIndex
    split <;> rfl

/-- Settles O39: the fetch reads the two bytes where FX55 stored the two registers. -/
theorem storedWordIsFetched : Obligations.StoredWordIsFetched := by
  intro x i j s a hwf hfont hfits hj hij ha
  obtain ⟨t, hexec, hbytes, -⟩ := storeRegisters x s hwf hfont hfits
  refine ⟨t, hexec, ?_⟩
  have hx := Fin.le_def.1 hj
  have hi : i ≤ x := Fin.le_def.2 (by omega)
  have hnext : a.toNat + 1 = s.dataAddress + j.val := by omega
  have hpc : (t.setPc a).pc.toNat + 1 < memorySize := by
    rw [State.setPc_pc, memorySize]; omega
  have hword : (t.setPc a).wordAt a.toNat = wordOfBytes (s.getV i) (s.getV j) := by
    rw [← hbytes i hi, ← hbytes j hj, ← ha, ← hnext]
    rfl
  rw [State.fetch_ok _ hpc, State.setPc_pc, hword]

/-- Settles O38: FX65 is a load of the registers up to X and the increment. -/
theorem loadRegisters : Obligations.LoadRegisters := by
  intro x s hfits
  obtain ⟨vs, hvs⟩ : ∃ vs, s.regsLoaded x = { s with v := vs } := ⟨_, rfl⟩
  refine ⟨(s.regsLoaded x).advanceIndex x, exec_of_no_fault (if_pos hfits), fun i hi => ?_, fun i hi => ?_, ?_, ?_, ?_⟩
  · rw [State.getV_advanceIndex, State.getV_regsLoaded, if_pos hi]
  · rw [State.getV_advanceIndex, State.getV_regsLoaded, if_neg (not_le_of_gt hi)]
  · rw [hvs]
    exact State.toNat_advanceIndex_index _ x
  · rw [hvs]
    exact State.byteAt_advanceIndex _ x
  · rw [hvs]
    unfold State.advanceIndex
    split <;> rfl

/-! ### The sprite draw -/

/-- A draw completes when every drawn row can be read. -/
theorem expectedFault_drw_of_reads {s : State} {x y : RegIdx} {n : Fin 16}
    (h : drawnRows (s.originY y) n.val = 0 ∨ s.dataAddress + drawnRows (s.originY y) n.val ≤ 4096) :
    expectedFault s (.drw x y n) = none := by
  rw [expectedFault]
  obtain hnone | hfits := h
  · exact if_pos hnone
  · split
    · rfl
    · exact if_pos hfits

theorem State.pixel_drawn (s : State) (x y : RegIdx) (n : Fin 16) {px py : Nat} (hx : px < 64) (hy : py < 32) :
    (s.drawn x y n).pixel px py =
      (s.pixel px py ^^ s.spriteBit (s.originX x) (s.originY y) n.val px py) :=
  s.pixel_drawnDisplay _ _ _ hx hy

theorem State.getV_drawn (s : State) (x y : RegIdx) (n : Fin 16) (r : RegIdx) : (s.drawn x y n).getV r =
    if r = vfIdx then flagByte (s.collides (s.originX x) (s.originY y) n.val) else s.getV r := by
  rw [State.drawn, State.getV_setFlag, State.getV_setDisplay]

theorem State.setFlag_setDisplay_only (s : State) (d : Display) (c : Bool) : (s.setDisplay d).setFlag c =
    { s with v := ((s.setDisplay d).setFlag c).v, display := ((s.setDisplay d).setFlag c).display } := rfl

/-- A draw changes VF and the display alone. -/
theorem State.drawn_only (s : State) (x y : RegIdx) (n : Fin 16) :
    s.drawn x y n = { s with v := (s.drawn x y n).v, display := (s.drawn x y n).display } :=
  s.setFlag_setDisplay_only _ _

theorem State.sameMemory_drawn (s : State) (x y : RegIdx) (n : Fin 16) : SameMemory s (s.drawn x y n) :=
  State.byteAt_congr (by rw [State.drawn, State.setFlag_mem, State.setDisplay_mem])
    (by rw [State.drawn, State.setFlag_params, State.setDisplay_params])

/-- VF after a draw: 1 exactly when a sprite bit of 1 fell on a lit pixel. -/
theorem State.getV_drawn_vf (s : State) (x y : RegIdx) (n : Fin 16) : (s.drawn x y n).getV vfIdx = 1 ↔
    ∃ px py, px < 64 ∧ py < 32 ∧ s.pixel px py = true ∧
      s.spriteBit (s.originX x) (s.originY y) n.val px py = true := by
  rw [State.getV_drawn, if_pos rfl, ← s.collides_iff]
  cases s.collides (s.originX x) (s.originY y) n.val <;> decide

/-- Settles O29: the drawn display is the XOR by definition, tied to the row loop by `drawRows_eq_drawn`. -/
theorem drawXorsTheSprite : Obligations.DrawXorsTheSprite := by
  rintro x y n s x0 y0 rfl rfl hread
  refine ⟨s.drawn x y n, exec_of_no_fault (expectedFault_drw_of_reads hread), fun px py => s.pixel_drawn x y n,
    (s.getV_drawn_vf x y n).2, fun hdark => ?_, fun r hr => ?_, s.sameMemory_drawn x y n, s.drawn_only x y n⟩
  · have hnohit : s.collides (s.originX x) (s.originY y) n.val = false := by
      refine Bool.eq_false_iff.2 fun hhit => ?_
      obtain ⟨px, py, hx, hy, hlit, hbit⟩ := (s.collides_iff _ _ _).1 hhit
      exact absurd hbit (Bool.eq_false_iff.1 (hdark px py hx hy hlit))
    rw [State.getV_drawn, if_pos rfl, hnohit]
    rfl
  · rw [State.getV_drawn, if_neg (List.ne_of_not_mem_cons hr)]

section
variable (s : State) (d : Display) (x y : RegIdx) (n : Fin 16)

theorem State.setFlag_setDisplay_with_v (c : Bool) :
    { (s.setDisplay d).setFlag c with v := s.v } = s.setDisplay d := rfl

/-- With the registers restored, a drawn state is the state it was drawn from with the drawn display. -/
theorem State.drawn_with_v :
    { s.drawn x y n with v := s.v } = s.setDisplay (s.drawnDisplay (s.originX x) (s.originY y) n.val) :=
  s.setFlag_setDisplay_with_v _ _

/-- The sprite does not depend on the display it is drawn on. -/
theorem State.pixel_drawn_setDisplay {px py : Nat} (hx : px < 64) (hy : py < 32) :
    ((s.setDisplay d).drawn x y n).pixel px py =
      (Display.pixel d px py ^^ s.spriteBit (s.originX x) (s.originY y) n.val px py) :=
  (s.setDisplay d).pixel_drawn x y n hx hy

theorem State.getV_drawn_vf_setDisplay : ((s.setDisplay d).drawn x y n).getV vfIdx = 1 ↔
    ∃ px py, px < 64 ∧ py < 32 ∧ Display.pixel d px py = true ∧
      s.spriteBit (s.originX x) (s.originY y) n.val px py = true :=
  (s.setDisplay d).getV_drawn_vf x y n

theorem expectedFault_drw_setDisplay : expectedFault (s.setDisplay d) (.drw x y n) = expectedFault s (.drw x y n) := rfl

end

/-- Settles O30: the second draw has the same sprite, so it XORs each bit away again, and a bit of 1 meets a lit
pixel there exactly where the pixel was dark at first. -/
theorem drawTwiceRestoresTheDisplay : Obligations.DrawTwiceRestoresTheDisplay := by
  rintro x y n s x0 y0 rfl rfl hread
  have hnone : expectedFault s (.drw x y n) = none := expectedFault_drw_of_reads hread
  refine ⟨s.drawn x y n, (s.setDisplay (s.drawnDisplay (s.originX x) (s.originY y) n.val)).drawn x y n,
    exec_of_no_fault hnone, ?_, Display.ext_pixel fun px py hx hy => ?_, ?_⟩
  · rw [s.drawn_with_v x y n]
    exact exec_of_no_fault ((expectedFault_drw_setDisplay s _ x y n).trans hnone)
  · refine (s.pixel_drawn_setDisplay _ x y n hx hy).trans ?_
    rw [s.pixel_drawnDisplay _ _ _ hx hy, Bool.xor_assoc, Bool.xor_self, Bool.xor_false]
    rfl
  · rw [s.getV_drawn_vf_setDisplay]
    refine exists_congr fun px => exists_congr fun py => and_congr_right fun hx => and_congr_right fun hy => ?_
    rw [s.pixel_drawnDisplay _ _ _ hx hy]
    change _ ↔ s.spriteBit (s.originX x) (s.originY y) n.val px py = true ∧ s.pixel px py = false
    cases s.pixel px py <;> cases s.spriteBit (s.originX x) (s.originY y) n.val px py <;> decide

end Sys2Proof.Machine
end
